-- ==== Sys2Proof/Word.lean ====
section
/-! DEFINITION. The two widths of the CORE: an unsigned byte and an unsigned 32-bit word
(00_scope.md §4, 20_memory.md R43, 92_eei_decisions.md D19). -/

namespace Sys2Proof

/-- An unsigned 8-bit byte: a FEED's input, a buffer slot, a byte of an encoded frame. -/
abbrev Byte := BitVec 8

/-- An unsigned 32-bit bus word, opaque to the CORE (91_not_in_source.md N3). -/
abbrev Word := BitVec 32

end Sys2Proof
end

