-- ==== Sys2Proof/Config.lean ====
section
/-! DEFINITION. What is fixed at build time (00_scope.md §3, 10_state.md R27), the assumption the spec
lets a model make about it (92_eei_decisions.md D13), and the one free value (R54, U5). -/

namespace Sys2Proof

/-- Slots of the frame buffer (R8). -/
abbrev Config.capacity : Nat := 10

/-- Bytes of a valid decode-direction frame (R12). -/
abbrev Config.frameLen : Nat := 7

/-- Bytes of an encoded frame (R13). -/
abbrev Config.encLen : Nat := 10

/-- The byte constants of 00_scope.md §3, each a named parameter (D13).
The values of the source are "unaudited" (91_not_in_source.md N1), so no rule below reads a number. -/
structure Config where
  /-- START_MARKER, the start of a decode-direction frame (R9). -/
  startMarker  : Byte
  /-- TERMINATOR, the end of a frame in both directions (R10). -/
  terminator   : Byte
  /-- START_TX, byte 0 of every encoded frame (R11). -/
  startTx      : Byte
  /-- CHAR_BASE, the code of the letter for nibble 0 (R15). -/
  charBase     : Byte
  /-- EMPTY_PATTERN, the sentinel frame "no data currently available" (R14). -/
  emptyPattern : Vector Byte Config.frameLen
  deriving DecidableEq, Repr

/-- The defaults of 00_scope.md §3 (R9, R10, R11, R14, R15). -/
def Config.default : Config where
  startMarker  := 0x06
  terminator   := 0x0D
  startTx      := 0x01
  charBase     := 0x41
  emptyPattern := #v[0x06, 0x00, 0x00, 0x00, 0x80, 0x00, 0x0D]

/-- All a model "may assume" of the constants (D13): the two markers differ and the sentinel is framed by
them. The fourth relation of D13, CAPACITY >= FRAME_LEN, holds of the two constants above. -/
abbrev Config.Wf (c : Config) : Prop :=
  c.startMarker ≠ c.terminator ∧ c.emptyPattern[0] = c.startMarker ∧ c.emptyPattern[6] = c.terminator

/-- What the letters of an encoded frame are besides (R90): neither a letter nor START_TX is a sentinel of
the decode direction, and no letter is START_TX. It holds of the defaults, not of every configuration. -/
abbrev Config.LettersApart (c : Config) : Prop :=
  c.startTx ≠ c.startMarker ∧ c.startTx ≠ c.terminator ∧
    ∀ n : BitVec 4, c.charBase + n.setWidth 8 ≠ c.startMarker ∧ c.charBase + n.setWidth 8 ≠ c.terminator ∧
      c.charBase + n.setWidth 8 ≠ c.startTx

/-- N_STREAMS (D18) of `State.reset`. DESIGN CHOICE (log entry 4): the spec leaves the number open;
`State.resetWith` takes any. -/
abbrev Config.nStreams : Nat := 1

/-- What a slot of the frame buffer holds at reset. DESIGN CHOICE (log entry 3): the spec leaves it
unspecified and unobservable, and lets a model use "any fixed value" (R33, U2). -/
abbrev Config.resetByte : Byte := 0x00

/-- RES_WORD_NOVALUE (R54, D5, U5): the wire value of `res_word` when the response "carries no value".
A free value: it has no body, and each draw may differ (log entry 5). -/
opaque Config.resWordNoValue : Nat → Word

end Sys2Proof
end

