-- ==== Sys2Proof/Syntax.lean ====
section
/-! DEFINITION. The instructions: one constructor per row of spec/opcode_table.json, and the raw inputs of
the three ports they are read from (30_encoding.md §1 and §3). -/

namespace Sys2Proof

/-- The seven operations of spec/opcode_table.json. No operand names a decoder: the formats have "no other
field" (R50), so which decoder a transaction is performed on is the port it arrives at (`State.current`). -/
inductive Instr where
  /-- FEED_START: the byte START_MARKER (R67). -/
  | feedStart
  /-- FEED_TERM: the byte TERMINATOR (R68). -/
  | feedTerm
  /-- FEED_BYTE: any other byte (R69). -/
  | feedByte (b : Byte)
  /-- ENCODE: one 32-bit word (R84). -/
  | encode (w : Word)
  /-- FRAME_BADLEN: a completed frame whose length is not FRAME_LEN (R77); `body` is what stands between
  its start marker and its terminator. -/
  | frameBadLen (body : List Byte)
  /-- FRAME_EMPTY: the completed frame EMPTY_PATTERN (R80). -/
  | frameEmpty
  /-- FRAME_DATA: any other completed frame of FRAME_LEN bytes (R76): payload and escape mask (R56). -/
  | frameData (b1 b2 b3 b4 mask : Byte)
  deriving DecidableEq, Repr

/-- What stands at a port in one transaction: the encoded form of an instruction. -/
inductive PortInput where
  /-- Format FEED8 at a decode port: `byte[7:0]` (R50). -/
  | feed (b : Byte)
  /-- Format ENC32 at the encode port: `word[31:0]` (R52). -/
  | enc (w : Word)
  /-- A frame at FRAME_DECODE's internal input, index 0 first (R56, R59). -/
  | frame (bytes : List Byte)
  deriving DecidableEq, Repr

end Sys2Proof
end

