-- ==== Sys2Proof/WellFormed.lean ====
section
/-! DEFINITION. Which operands an instruction's encoding admits (30_encoding.md R51, R58, R59). -/

namespace Sys2Proof

/-- The bytes of the frame with this body: START_MARKER first and TERMINATOR last (R56). -/
def Config.wrap (c : Config) (body : List Byte) : List Byte :=
  c.startMarker :: (body ++ [c.terminator])

/-- The body of a 7-byte frame: four payload bytes and the escape mask (R56). -/
abbrev dataBody (b1 b2 b3 b4 mask : Byte) : List Byte := [b1, b2, b3, b4, mask]

/-- The lengths of a completed frame: "2 to 10 bytes long" (R58). -/
abbrev frameLenOk (n : Nat) : Prop := 2 ≤ n ∧ n ≤ Config.capacity

/-- The check: a FEED_BYTE carries neither marker (R51); a FRAME_BADLEN has a completed frame's length other
than FRAME_LEN (R58, R59); a FRAME_DATA is not the sentinel (R59). The others admit every operand. -/
def Instr.wellFormed (c : Config) : Instr → Bool
  | .feedStart => true
  | .feedTerm => true
  | .feedByte b => b != c.startMarker && b != c.terminator
  | .encode _ => true
  | .frameBadLen body => decide (frameLenOk (c.wrap body).length ∧ (c.wrap body).length ≠ Config.frameLen)
  | .frameEmpty => true
  | .frameData b1 b2 b3 b4 mask => c.wrap (dataBody b1 b2 b3 b4 mask) != c.emptyPattern.toList

end Sys2Proof
end

