-- ==== Sys2Proof/Decode.lean ====
section
/-! DEFINITION. The decoder, total on whatever stands at a port, and the encoder beside it
(30_encoding.md R50 to R52, R56, R58, R59). -/

namespace Sys2Proof

/-- Why bytes at FRAME_DECODE's internal input are no completed frame. The two outer ports reject nothing
(R61), so every reason is about the internal one (R56, R58). -/
inductive DecodeError where
  /-- Fewer than 2 bytes: "No frame of length 1 … can be completed" (R58). -/
  | frameTooShort
  /-- More than CAPACITY bytes: none "above 10 can be completed" (R58). -/
  | frameTooLong
  /-- The first byte is not START_MARKER, which is "always present" (R56). -/
  | noStart
  /-- The last byte is not TERMINATOR, which is "always present" (R56). -/
  | noTerminator
  deriving DecidableEq, Repr

/-- FEED classification, tested in the order of R51. -/
def decodeFeed (c : Config) (b : Byte) : Instr :=
  if b = c.startMarker then .feedStart
  else if b = c.terminator then .feedTerm
  else .feedByte b

/-- Frame classification of a completed frame with this body, tested in the order of R59. -/
def decodeBody (c : Config) (body : List Byte) : Instr :=
  match body with
  | [b1, b2, b3, b4, mask] =>
    if c.wrap [b1, b2, b3, b4, mask] = c.emptyPattern.toList then .frameEmpty
    else .frameData b1 b2 b3 b4 mask
  | _ => .frameBadLen body

/-- The frame at the internal input: its form (R56, R58), then its class (R59). -/
def decodeFrame (c : Config) (bytes : List Byte) : Except DecodeError Instr :=
  if bytes.length < 2 then .error .frameTooShort
  else if Config.capacity < bytes.length then .error .frameTooLong
  else if bytes.head? ≠ some c.startMarker then .error .noStart
  else if bytes.getLast? ≠ some c.terminator then .error .noTerminator
  else .ok (decodeBody c bytes.tail.dropLast)

/-- The decoder: the instruction that stands at a port, or the reason there is none. -/
def decode (c : Config) : PortInput → Except DecodeError Instr
  | .feed b => .ok (decodeFeed c b)
  | .enc w => .ok (.encode w)
  | .frame bytes => decodeFrame c bytes

/-- The encoder: what stands at the port for this instruction (R63: "the encoding of FEED is the byte
itself", that of ENCODE "the 32-bit word itself"; R56 for frames). -/
def encode (c : Config) : Instr → PortInput
  | .feedStart => .feed c.startMarker
  | .feedTerm => .feed c.terminator
  | .feedByte b => .feed b
  | .encode w => .enc w
  | .frameBadLen body => .frame (c.wrap body)
  | .frameEmpty => .frame c.emptyPattern.toList
  | .frameData b1 b2 b3 b4 mask => .frame (c.wrap (dataBody b1 b2 b3 b4 mask))

/-- Byte `i` of a number, byte 0 the least significant. -/
def byteOf (w i : Nat) : Byte := BitVec.ofNat 8 (w / 256 ^ i)

/-- The `n` bytes of a number, the least significant first. -/
def bytesOf (w n : Nat) : List Byte := (List.range n).map (byteOf w)

/-- The frame a number of `n` bytes stands for. The first byte is the least significant; where that is
no START…TERMINATOR frame, the table's own numbering of its FRAME rows is taken, "index 0 is the most
significant byte". DESIGN CHOICE (log entry 18). -/
def frameOf (c : Config) (w n : Nat) : List Byte :=
  let bs := bytesOf w n
  if bs.head? = some c.startMarker ∧ bs.getLast? = some c.terminator then bs else bs.reverse

/-- The port input of a table word of `nbits` bits: up to 8 bits a FEED, 32 an ENCODE, any other whole
number of bytes a frame (log entry 18). -/
def portInputOf (c : Config) (nbits w : Nat) : Option PortInput :=
  if nbits ≤ 8 then some (.feed (byteOf w 0))
  else if nbits = 32 then some (.enc (BitVec.ofNat 32 w))
  else if nbits % 8 = 0 ∧ nbits / 8 ≤ Config.capacity then some (.frame (frameOf c w (nbits / 8)))
  else none

/-- The instruction the decoder reads from a table word, under the default constants. -/
def decodeTableWord (nbits w : Nat) : Option Instr :=
  match portInputOf Config.default nbits w with
  | none => none
  | some p =>
    match decode Config.default p with
    | .ok i => some i
    | .error _ => none

end Sys2Proof
end

