-- ==== Sys2Proof/Machine/State.lean ====
section
/-! DEFINITION. The state of the CORE (10_state.md), its port signals (92_eei_decisions.md D2), what the
environment has still to offer, the reasons a step can stop, and the state after reset. Plain data. -/

namespace Sys2Proof.Machine

/-- One Decoder: "exactly two pieces of state" (R16). The cursor is typed as R34 asks, so the values 11 to
15 of a 4-bit register do not exist (U4, log entry 20). -/
structure Decoder where
  /-- The frame buffer: exactly CAPACITY bytes (R8, R17). -/
  buffer   : Vector Byte Config.capacity
  /-- The cursor, "marking the next write slot" (R18), 0 to CAPACITY inclusive (R19). -/
  position : Fin (Config.capacity + 1)
  deriving DecidableEq, Repr

/-- A fresh Decoder: `position == 0` (R32, R102), the buffer unspecified (R33; log entry 3). -/
def Decoder.fresh : Decoder where
  buffer   := Vector.replicate Config.capacity Config.resetByte
  position := 0

/-- The decoded message a FEED returns, "a tagged result" (R24). `Pending` and `Error` have no word (R54),
and `Error` has no cause (R30, R92). -/
inductive Decoded where
  /-- "no complete frame yet; carries no value" -/
  | pending
  /-- "a complete, valid frame decoded to a bus word" -/
  | data (word : Word)
  /-- "a complete frame matching the reserved 'no data / timeout' sentinel pattern" -/
  | empty
  /-- "a complete frame of wrong length, or a byte arrived while the parser could not accept it" -/
  | error
  deriving DecidableEq, Repr

/-- Format ENCFRAME: exactly ENC_LEN bytes, in wire order (R55, R39). -/
abbrev EncFrame := Vector Byte Config.encLen

/-- One transaction the environment offers on an outer port (R3, D2). -/
inductive Txn where
  /-- A byte on the decode port of decoder `k`: `feed_valid`, `feed_byte`. -/
  | feed (k : Nat) (b : Byte)
  /-- A word on the encode port: `enc_valid`, `enc_word`. -/
  | enc (w : Word)
  deriving DecidableEq, Repr

/-- What the environment does next. -/
inductive Event where
  /-- Transactions offered at the same time (R48); none of them is an empty poll (R70). -/
  | offer (txns : List Txn)
  /-- `rst` of decoder `k` (R102, D2). -/
  | rst (k : Nat)
  deriving DecidableEq, Repr

/-- The state. `cfg` is fixed at build time and no step changes it (R27, log entry 1); `decoders` is all the
state the spec gives the CORE (R16, R100); `res` and `encFrame` are what the ports drive in the step just
done, read by no later one (R25, log entry 6); the other fields are the model's own. -/
structure State where
  /-- The build-time constants (00_scope.md §3, R27). -/
  cfg      : Config
  /-- The decoders, one per stream: N_STREAMS of them (R31, R100). -/
  decoders : List Decoder
  /-- The "current decoder instance" of R63, whose port the transaction is on (log entry 8). -/
  current  : Nat
  /-- What stands at FRAME_DECODE's internal input between two steps: nothing, in every run (log entry 9). -/
  frameIn  : Option (List Byte)
  /-- What the environment has still to offer, oldest first (R38, R47; log entry 7). -/
  inputs   : List Event
  /-- The decode port's response of this step (R24, R53). -/
  res      : Option Decoded
  /-- The encode port's response of this step (R55). -/
  encFrame : Option EncFrame
  /-- How many decoded messages have been answered; RES_WORD_NOVALUE is drawn at it (log entry 5). -/
  draws    : Nat
  deriving DecidableEq, Repr

/-- Why a step stops with a fault. The spec has no trap (R91): its `Error` is a value and stops nothing. -/
inductive Fault where
  /-- A FEED or a reset for a decoder the machine does not have. Raised by the FEED meanings and by the reset
  of one decoder; never by a machine whose environment uses the N_STREAMS ports there are. Safe: it stops. -/
  | noDecoder
  deriving DecidableEq, Repr

/-- Why a step is refused. -/
inductive Refusal where
  /-- An instruction without a meaning, by its mnemonic. Raised by no arm of this model. Safe. -/
  | notModelled (mnemonic : String)
  /-- Two FEEDs offered to one decoder at the same time, "undefined" (R48, U1). Raised by the step. Safe. -/
  | concurrentFeed
  /-- Bytes at FRAME_DECODE's internal input that are no completed frame (R56, R58), so never in a run
  (log entry 22). Raised by the step. Safe. -/
  | undecodable (why : DecodeError)
  deriving DecidableEq, Repr

/-- The machine right after reset with `n` decoders (R32, R35, R100): nothing offered, nothing answered. -/
def State.resetWith (n : Nat) : State where
  cfg      := Config.default
  decoders := List.replicate n Decoder.fresh
  current  := 0
  frameIn  := none
  inputs   := []
  res      := none
  encFrame := none
  draws    := 0

/-- The machine right after reset (R35), with `Config.nStreams` decoders (log entry 4). -/
def State.reset : State := State.resetWith Config.nStreams

end Sys2Proof.Machine
end

