-- ==== Sys2Proof/Machine/Flags.lean ====
section
/-! DEFINITION. The CORE has no flags (R25). What stands for them is the response: its port encoding
(R53, R54) and the spec's own labels for the causes of `Error` (R92). -/

namespace Sys2Proof.Machine

/-- The 2-bit lane `res_tag` (R53; the codes are the spec's decision D4). -/
def Decoded.resTag : Decoded → BitVec 2
  | .pending => 0
  | .data _ => 1
  | .empty => 2
  | .error => 3

/-- The 32-bit lane `res_word`: the word of `Data`, 0 for `Empty`, and RES_WORD_NOVALUE, a free value, for
the two that carry none (R54, D5). -/
def Decoded.resWord (draw : Nat) : Decoded → Word
  | .data w => w
  | .empty => 0
  | .pending => Config.resWordNoValue draw
  | .error => Config.resWordNoValue draw

/-- The lane `res_tag` of the decode port in the step just done, where it had a response (D2). -/
def State.resTag (s : State) : Option (BitVec 2) := s.res.map Decoded.resTag

/-- The lane `res_word` of the decode port in the step just done, where it had a response (D2). -/
def State.resWord (s : State) : Option Word := s.res.map (Decoded.resWord s.draws)

/-- The spec's labels for the causes of `Error`, "not visible at the port" (R92, D15). -/
inductive ErrorCause where
  /-- ERR_NOSYNC: a byte other than START_MARKER while the decoder awaits one. -/
  | noSync
  /-- ERR_OVERFLOW: a byte other than START_MARKER in the stuck state. -/
  | overflow
  /-- ERR_LENGTH: a terminator accepted at a cursor that makes the frame's length wrong. -/
  | length
  deriving DecidableEq, Repr

/-- The conditions of R92's table on the byte and the decoder before the FEED. -/
def errorCause (c : Config) (b : Byte) (d : Decoder) : Option ErrorCause :=
  if b = c.startMarker then none
  else if d.position.val = 0 then some .noSync
  else if d.position.val = Config.capacity then some .overflow
  else if b = c.terminator ∧ d.position.val ≠ 6 then some .length
  else none

end Sys2Proof.Machine
end

