-- ==== Sys2Proof/Machine/Operands.lean ====
section
/-! DEFINITION. The operand forms: escape restoration and word assembly of a frame (R78, R79), nibble
extraction and the character map of a word (R85, R86). -/

namespace Sys2Proof.Machine

/-- The index of the escape mask in a frame (R56). -/
abbrev maskIndex : Nat := 5

/-- `RESTORE(frame, k)` for k from 1 to 4: `mask[8-k]` governs `b(k)` (R57); a governed 0x00 is the start
marker, a governed byte of any other value the terminator (R78). The frame has FRAME_LEN bytes, so the
default of `getD` is never read. -/
def restore (c : Config) (frame : List Byte) (k : Nat) : Byte :=
  let s := frame.getD k 0
  let m := frame.getD maskIndex 0
  if m.getLsbD (8 - k) then (if s = 0x00 then c.startMarker else c.terminator) else s

/-- `ASSEMBLE(r1, r2, r3, r4)`, little-endian (R79, R40). -/
def assemble (r1 r2 r3 r4 : Byte) : Word :=
  r1.setWidth 32 ||| (r2.setWidth 32 <<< 8) ||| (r3.setWidth 32 <<< 16) ||| (r4.setWidth 32 <<< 24)

/-- Nibble `i` of a word: bits `4i` to `4i+3` (R85). -/
def nibble (w : Word) (i : Nat) : BitVec 4 := w.extractLsb' (4 * i) 4

/-- The character map: `CHAR_BASE + n`, an 8-bit sum (R86). -/
def letter (c : Config) (n : BitVec 4) : Byte := c.charBase + n.setWidth 8

/-- `encode(word)`: START_TX, the letters `c0` to `c7` of nibbles 0 to 7, TERMINATOR (R84, R55). -/
def encodeWord (c : Config) (w : Word) : EncFrame :=
  #v[c.startTx, letter c (nibble w 0), letter c (nibble w 1), letter c (nibble w 2), letter c (nibble w 3),
    letter c (nibble w 4), letter c (nibble w 5), letter c (nibble w 6), letter c (nibble w 7), c.terminator]

end Sys2Proof.Machine
end

