-- ==== Sys2Proof/Machine/Ops.lean ====
section
/-! DEFINITION. The named operations the meanings share: the buffer and the cursor (R37), FRAME_DECODE
(R76), answering on a port (R24, R55), the reset of one decoder (R102), and taking what the environment
offers (R38, R48, R70). The CORE takes no exception and returns from none (R91, R95, R96), so no
operation here does. -/

namespace Sys2Proof.Machine

/-! ### One decoder -/

/-- "0 < position < CAPACITY": a frame is in progress and has room (R66). -/
abbrev Decoder.Accepting (d : Decoder) : Prop := 0 < d.position.val ∧ d.position.val < Config.capacity

/-- `buffer[0] <- START_MARKER; position <- 1` (R67). -/
def Decoder.start (c : Config) (d : Decoder) : Decoder where
  buffer   := d.buffer.set 0 c.startMarker
  position := 1

/-- `buffer[position] <- b`, where the cursor is below CAPACITY (R37, R72). -/
def Decoder.store (d : Decoder) (b : Byte) (h : d.position.val < Config.capacity) : Decoder :=
  { d with buffer := d.buffer.set d.position.val b h }

/-- `position <- position + 1`, where the cursor is below CAPACITY (R69, R72). -/
def Decoder.advance (d : Decoder) (h : d.position.val < Config.capacity) : Decoder :=
  { d with position := ⟨d.position.val + 1, Nat.succ_lt_succ h⟩ }

/-- `position <- 0` (R68). -/
def Decoder.rewind (d : Decoder) : Decoder := { d with position := 0 }

/-- `buffer[0..position]`, both ends included: `position + 1` bytes (R58, R76). -/
def Decoder.frame (d : Decoder) : List Byte := d.buffer.toList.take (d.position.val + 1)

/-! ### FRAME_DECODE -/

/-- `FRAME_DECODE(frame)`: the length check, the sentinel, then restoration and assembly, in that order
(R76, R77, R80, R78, R79). It is a function of the frame alone (R81). -/
def frameDecode (c : Config) (frame : List Byte) : Decoded :=
  if frame.length ≠ Config.frameLen then .error
  else if frame = c.emptyPattern.toList then .empty
  else .data (assemble (restore c frame 1) (restore c frame 2) (restore c frame 3) (restore c frame 4))

/-! ### Answering -/

/-- The decode port answers: the response is the output of this transaction (R24, R25), and the next draw of
RES_WORD_NOVALUE is another one (log entry 5). -/
def State.respond (s : State) (m : Decoded) : State :=
  { s with res := some m, draws := s.draws + 1 }

/-- The encode port answers with its 10-byte frame, written once to the byte sink (R55, R84, R38). -/
def State.emit (s : State) (f : EncFrame) : State := { s with encFrame := some f }

/-- Replace decoder `k` (R31: the state belongs to its own decoder). -/
def State.setDecoder (s : State) (k : Nat) (d : Decoder) : State :=
  { s with decoders := s.decoders.set k d }

/-- A FEED: the current decoder moves and answers as `f` says (R22, R44). -/
def State.onCurrent (s : State) (f : Decoder → Decoder × Decoded) : Host.Outcome State Fault Refusal :=
  match s.decoders[s.current]? with
  | some d => .next ((s.setDecoder s.current (f d).1).respond (f d).2)
  | none => .fault .noDecoder

/-- Reset of decoder `k`: the construction of a fresh Decoder, without a response (R102). -/
def State.resetDecoder (s : State) (k : Nat) : Host.Outcome State Fault Refusal :=
  match s.decoders[k]? with
  | some _ => .next (s.setDecoder k Decoder.fresh)
  | none => .fault .noDecoder

/-! ### What the step is to perform -/

/-- What the step performs next. -/
inductive Fetched where
  /-- Nothing is offered (R70). -/
  | idle (s : State)
  /-- A decoder is reset (R102). -/
  | rst (k : Nat) (s : State)
  /-- One transaction is performed (R112), or FRAME_DECODE on the frame at its input (R76). -/
  | input (p : PortInput) (s : State)
  /-- Two FEEDs to one decoder at the same time (R48). -/
  | clash

/-- The decoders that the FEEDs of an offer go to. -/
def feedTargets : List Txn → List Nat
  | [] => []
  | .feed k _ :: ts => k :: feedTargets ts
  | .enc _ :: ts => feedTargets ts

/-- The outputs of a port are valid in the step of its transaction only (D2, R25). -/
def State.quiet (s : State) : State := { s with res := none, encFrame := none }

/-- What is left of an offer when its first transaction is taken (log entry 7). -/
def pushRest (ts : List Txn) (rest : List Event) : List Event :=
  match ts with
  | [] => rest
  | t :: ts => .offer (t :: ts) :: rest

/-- One transaction stands at its port. -/
def State.present (s : State) : Txn → Fetched
  | .feed k b => .input (.feed b) { s with current := k }
  | .enc w => .input (.enc w) s

/-- Take the environment's next offer. An offer with two FEEDs to one decoder is refused, never interleaved
(R48, U1); of any other, one transaction is performed a step (R112, D1). -/
def State.takeInput (s : State) : Fetched :=
  match s.inputs with
  | [] => .idle s
  | .rst k :: rest => .rst k { s with inputs := rest }
  | .offer [] :: rest => .idle { s with inputs := rest }
  | .offer (t :: ts) :: rest =>
    if (feedTargets (t :: ts)).Nodup then State.present { s with inputs := pushRest ts rest } t else .clash

/-- What the step performs: FRAME_DECODE where a frame stands at its internal input, else the
environment's next offer. -/
def State.fetch (s : State) : Fetched :=
  match s.frameIn with
  | some bytes => .input (.frame bytes) { s.quiet with frameIn := none }
  | none => s.quiet.takeInput

end Sys2Proof.Machine
end

