-- ==== Sys2Proof/Machine/Encode.lean ====
section
/-! DEFINITION. The encode port's family: ENCODE (42_encoder.md). -/

namespace Sys2Proof.Machine

/-- ENCODE: answer the 10-byte frame of the word; no decoder state is read or written (R84). -/
def execEncode (w : Word) (s : State) : Host.Outcome State Fault Refusal :=
  .next (s.emit (encodeWord s.cfg w))

end Sys2Proof.Machine
end

