-- ==== Sys2Proof/Machine/Feed.lean ====
section
/-! DEFINITION. The decode port's family: FEED_START, FEED_TERM, FEED_BYTE (40_decoder_fsm.md). -/

namespace Sys2Proof.Machine

/-- FEED_START on one decoder: in every state, start a frame and answer `Pending` (R67). -/
def Decoder.feedStart (c : Config) (d : Decoder) : Decoder × Decoded := (d.start c, .pending)

/-- FEED_TERM on one decoder: close and check the frame in progress, or reject with nothing written (R68). -/
def Decoder.feedTerm (c : Config) (d : Decoder) : Decoder × Decoded :=
  if h : d.Accepting then
    let closed := d.store c.terminator h.2
    (closed.rewind, frameDecode c closed.frame)
  else (d, .error)

/-- FEED_BYTE on one decoder: append the byte, or reject with nothing written (R69). -/
def Decoder.feedByte (b : Byte) (d : Decoder) : Decoder × Decoded :=
  if h : d.Accepting then ((d.store b h.2).advance h.2, .pending) else (d, .error)

/-- FEED_START (R67). -/
def execFeedStart (s : State) : Host.Outcome State Fault Refusal :=
  s.onCurrent (Decoder.feedStart s.cfg)

/-- FEED_TERM (R68). -/
def execFeedTerm (s : State) : Host.Outcome State Fault Refusal :=
  s.onCurrent (Decoder.feedTerm s.cfg)

/-- FEED_BYTE (R69). -/
def execFeedByte (b : Byte) (s : State) : Host.Outcome State Fault Refusal :=
  s.onCurrent (Decoder.feedByte b)

end Sys2Proof.Machine
end

