-- ==== Sys2Proof/Machine/Frame.lean ====
section
/-! DEFINITION. The internal port's family: FRAME_BADLEN, FRAME_EMPTY, FRAME_DATA (41_frame_check.md). Each is
FRAME_DECODE performed on its own frame: the response is the frame's class's, and no decoder state is
written (R81). In a run FRAME_DECODE is performed inside FEED_TERM's step (R68), which writes the buffer
and returns the cursor to 0. -/

namespace Sys2Proof.Machine

/-- FRAME_BADLEN: a frame whose length is not FRAME_LEN (R77). -/
def execFrameBadLen (body : List Byte) (s : State) : Host.Outcome State Fault Refusal :=
  .next (s.respond (frameDecode s.cfg (s.cfg.wrap body)))

/-- FRAME_EMPTY: the frame EMPTY_PATTERN (R80). -/
def execFrameEmpty (s : State) : Host.Outcome State Fault Refusal :=
  .next (s.respond (frameDecode s.cfg s.cfg.emptyPattern.toList))

/-- FRAME_DATA: any other frame of FRAME_LEN bytes (R76, R78, R79). -/
def execFrameData (b1 b2 b3 b4 mask : Byte) (s : State) : Host.Outcome State Fault Refusal :=
  .next (s.respond (frameDecode s.cfg (s.cfg.wrap (dataBody b1 b2 b3 b4 mask))))

end Sys2Proof.Machine
end

