-- ==== Sys2Proof/Machine/Dispatch.lean ====
section
/-! DEFINITION. One arm per constructor of Instr. -/

namespace Sys2Proof.Machine

/-- The meaning of each operation. -/
def exec (i : Instr) (s : State) : Host.Outcome State Fault Refusal :=
  match i with
  | .feedStart => Sys2Proof.Machine.execFeedStart s
  | .feedTerm => Sys2Proof.Machine.execFeedTerm s
  | .feedByte b => Sys2Proof.Machine.execFeedByte b s
  | .encode w => Sys2Proof.Machine.execEncode w s
  | .frameBadLen body => Sys2Proof.Machine.execFrameBadLen body s
  | .frameEmpty => Sys2Proof.Machine.execFrameEmpty s
  | .frameData b1 b2 b3 b4 mask => Sys2Proof.Machine.execFrameData b1 b2 b3 b4 mask s

end Sys2Proof.Machine
end

