-- ==== Sys2Proof/Machine/Step.lean ====
section
/-! DEFINITION. One step: one transaction, one reset of a decoder, or one empty poll (R112, R102, R70). -/

namespace Sys2Proof.Machine

/-- One step of the machine (D1). The outputs of the step before are gone (R25); what stands at the port is
decoded and performed; an empty poll changes no state (R70). -/
def step (s : State) : Host.Outcome State Fault Refusal :=
  match s.fetch with
  | .idle s => .next s
  | .rst k s => s.resetDecoder k
  | .input p s =>
    match decode s.cfg p with
    | .ok i => exec i s
    | .error why => .refused (.undecodable why)
  | .clash => .refused .concurrentFeed

/-- `s` with this port input as the one the next step performs. -/
def State.withInput (s : State) : PortInput → State
  | .feed b => { s with frameIn := none, inputs := .offer [.feed s.current b] :: s.inputs }
  | .enc w => { s with frameIn := none, inputs := .offer [.enc w] :: s.inputs }
  | .frame bytes => { s with frameIn := some bytes }

/-- `s` with the instruction of a table word as the one the next step performs: a byte offered to the current
decoder, a word offered to the encode port, or a frame placed at FRAME_DECODE's internal input (log
entries 9, 18 and 19). -/
def State.withFetchWord (s : State) (nbits w : Nat) : State :=
  match portInputOf s.cfg nbits w with
  | some p => s.withInput p
  | none => s

end Sys2Proof.Machine
end

