-- ==== Sys2Proof/Safety.lean ====
section
/-! DEFINITION. The terms statements are made in: the invariant of the spec (R21), the transition function
as one pseudocode (R66), a stream of bytes fed one after the other (R47), and what it is for two states to
differ in unread bytes only (R29). -/

namespace Sys2Proof.Machine

/-- R21: with a frame in progress, slot 0 holds the start marker and no later slot of the frame a marker. -/
abbrev Decoder.Inv (c : Config) (d : Decoder) : Prop :=
  0 < d.position.val →
    d.buffer[0] = c.startMarker ∧
      ∀ i : Fin Config.capacity, 1 ≤ i.val → i.val < d.position.val →
        d.buffer[i.val] ≠ c.startMarker ∧ d.buffer[i.val] ≠ c.terminator

/-- R21 of every decoder. -/
abbrev State.Inv (s : State) : Prop := ∀ d ∈ s.decoders, d.Inv s.cfg

/-- The stuck state: `position == CAPACITY` (R73). -/
abbrev Decoder.Stuck (d : Decoder) : Prop := d.position.val = Config.capacity

/-- R66 as it stands: the whole transition function, its three branches tested in order. The model's FEED
meanings are not written over it: that a step is this function is a statement. -/
def feedRule (c : Config) (b : Byte) (d : Decoder) : Decoder × Decoded :=
  if b = c.startMarker then
    ({ buffer := d.buffer.set 0 b, position := 1 }, .pending)
  else if h : 0 < d.position.val ∧ d.position.val < Config.capacity then
    let buffer := d.buffer.set d.position.val b h.2
    if b = c.terminator then
      ({ buffer := buffer, position := 0 }, frameDecode c (buffer.toList.take (d.position.val + 1)))
    else
      ({ buffer := buffer, position := ⟨d.position.val + 1, Nat.succ_lt_succ h.2⟩ }, .pending)
  else (d, .error)

/-- `FEED` of several bytes to the current decoder, one step per byte, left to right (R63, R47): the responses
in order and the state after. `none` where a step stops or answers nothing on the decode port. -/
def feedAll : List Byte → State → Option (List Decoded × State)
  | [], s => some ([], s)
  | b :: bs, s =>
    match step (s.withInput (.feed b)) with
    | .next t =>
      match t.res with
      | some m => (feedAll bs t).map fun r => (m :: r.1, r.2)
      | none => none
    | .fault _ => none
    | .refused _ => none

/-- Two decoders that differ at most in `buffer[position..9]`, the stale bytes (R29). -/
abbrev Decoder.SameLive (d e : Decoder) : Prop :=
  d.position = e.position ∧
    ∀ i : Fin Config.capacity, i.val < d.position.val → d.buffer[i.val] = e.buffer[i.val]

/-- Two states that differ at most in stale bytes of their decoders (R29). -/
abbrev State.SameLive (s t : State) : Prop :=
  List.Forall₂ Decoder.SameLive s.decoders t.decoders ∧ { s with decoders := t.decoders } = t

/-- Both steps go on to states related by `R`, or both stop for the same reason. -/
def BothAnswer (R : State → State → Prop) :
    Host.Outcome State Fault Refusal → Host.Outcome State Fault Refusal → Prop
  | .next s, .next t => R s t
  | .fault a, .fault b => a = b
  | .refused a, .refused b => a = b
  | _, _ => False

end Sys2Proof.Machine
end

