-- ==== Sys2Proof/Certificates/Slice0/Obligations.lean ====
section
/-! DEFINITION. The statements for the provers. Throughout, `s.decoders[s.current]? = some d` says that the
decoder the FEED is performed on exists and is `d`; nothing is assumed of its buffer or cursor unless a
statement says so. -/

open Sys2Proof
open Sys2Proof.Machine

/-! ### Reset -/

/-- 10_state.md R32: after reset, `position == 0`. For every number of decoders (log entry 4). -/
def Obligations.ResetPutsEveryCursorAtZero : Prop :=
  (∀ n, ∀ d ∈ (State.resetWith n).decoders, d.position = 0) ∧
    ∀ d ∈ State.reset.decoders, d.position = 0

/-- The invariant of 10_state.md section 1 holds after reset, whatever the number of decoders. -/
def Obligations.ResetMeetsFrameInvariant : Prop :=
  (∀ n, (State.resetWith n).Inv) ∧ State.reset.Inv

/-- Reset of one decoder (70_reset_and_hazards.md section 1): its cursor is 0, no port answers, and no other
decoder changes. The buffer of the fresh decoder is left open here (log entry 3). -/
def Obligations.RstMakesOneDecoderFresh : Prop :=
  ∀ (s : State) (k : Nat) (rest : List Event), s.frameIn = none → s.inputs = .rst k :: rest →
    k < s.decoders.length →
    ∃ t, step s = .next t ∧ (∃ d, t.decoders[k]? = some d ∧ d.position = 0) ∧
      t.decoders.length = s.decoders.length ∧ (∀ j, j ≠ k → t.decoders[j]? = s.decoders[j]?) ∧
      t.res = none ∧ t.encFrame = none ∧ t.inputs = rest ∧ t.cfg = s.cfg

/-- 70_reset_and_hazards.md section 1: the first FEED after reset answers `Pending` if its byte is the start
marker and `Error` otherwise, and a rejected byte leaves the cursor at 0. -/
def Obligations.FirstFeedAfterReset : Prop :=
  ∀ (n : Nat) (k : Nat) (b : Byte), k < n →
    ∃ t d, step { State.resetWith n with inputs := [.offer [.feed k b]] } = .next t ∧
      t.decoders[k]? = some d ∧
      (b = Config.default.startMarker → t.res = some .pending ∧ d.position = 1) ∧
      (b ≠ Config.default.startMarker → t.res = some .error ∧ d.position = 0)

/-! ### The FEED operations -/

/-- 40_decoder_fsm.md R67, in every state: FEED_START answers `Pending`, writes slot 0 and the cursor, and
leaves slots 1 to 9 of the decoder and every other decoder as they were. -/
def Obligations.FeedStartStartsFrameInEveryState : Prop :=
  ∀ (s : State) (d : Decoder), s.decoders[s.current]? = some d →
    ∃ t e, exec .feedStart s = .next t ∧ t.res = some .pending ∧
      t.decoders = s.decoders.set s.current e ∧ e.position = 1 ∧ e.buffer[0] = s.cfg.startMarker ∧
      ∀ i : Fin Config.capacity, i.val ≠ 0 → e.buffer[i.val] = d.buffer[i.val]

/-- 40_decoder_fsm.md R68: with `0 < position < CAPACITY`, FEED_TERM writes the terminator at the cursor,
answers FRAME_DECODE of `buffer[0..position]` and returns the cursor to 0; otherwise it answers `Error`
and writes nothing. -/
def Obligations.FeedTermClosesFrameOrRejects : Prop :=
  ∀ (s : State) (d : Decoder), s.decoders[s.current]? = some d →
    ∃ t, exec .feedTerm s = .next t ∧
      if 0 < d.position.val ∧ d.position.val < Config.capacity then
        t.res = some (frameDecode s.cfg (d.buffer.toList.take d.position.val ++ [s.cfg.terminator])) ∧
        ∃ e, t.decoders = s.decoders.set s.current e ∧ e.position = 0 ∧
          ∀ i : Fin Config.capacity,
            e.buffer[i.val] = if i.val = d.position.val then s.cfg.terminator else d.buffer[i.val]
      else t.res = some .error ∧ t.decoders = s.decoders

/-- 40_decoder_fsm.md R69: with `0 < position < CAPACITY`, FEED_BYTE writes its byte at the cursor, advances
the cursor by 1 and answers `Pending`; otherwise it answers `Error` and writes nothing. -/
def Obligations.FeedByteAppendsOrRejects : Prop :=
  ∀ (s : State) (d : Decoder) (b : Byte), s.decoders[s.current]? = some d →
    b ≠ s.cfg.startMarker → b ≠ s.cfg.terminator →
    ∃ t, exec (.feedByte b) s = .next t ∧
      if 0 < d.position.val ∧ d.position.val < Config.capacity then
        t.res = some .pending ∧
        ∃ e, t.decoders = s.decoders.set s.current e ∧ e.position.val = d.position.val + 1 ∧
          ∀ i : Fin Config.capacity, e.buffer[i.val] = if i.val = d.position.val then b else d.buffer[i.val]
      else t.res = some .error ∧ t.decoders = s.decoders

/-- Frame of the three FEED operations: no other decoder, no constant, no other port and nothing still offered
changes (10_state.md sections 1 and 4: the state belongs to its instance). -/
def Obligations.FeedKeepsEverythingElse : Prop :=
  ∀ (s t : State) (i : Instr), (i = .feedStart ∨ i = .feedTerm ∨ ∃ b, i = .feedByte b) →
    exec i s = .next t →
    t.decoders.length = s.decoders.length ∧
      (∀ k, k ≠ s.current → t.decoders[k]? = s.decoders[k]?) ∧
      t.cfg = s.cfg ∧ t.current = s.current ∧ t.frameIn = s.frameIn ∧ t.inputs = s.inputs ∧
      t.encFrame = s.encFrame

/-- The model's choice (log entry 12): a FEED or a reset for a decoder the machine does not have stops with
the fault of its own, for each of the three FEED operations. -/
def Obligations.MissingDecoderFaults : Prop :=
  ∀ (s : State),
    (s.decoders[s.current]? = none →
      ∀ i : Instr, (i = .feedStart ∨ i = .feedTerm ∨ ∃ b, i = .feedByte b) → exec i s = .fault .noDecoder) ∧
    ∀ (k : Nat) (rest : List Event), s.frameIn = none → s.inputs = .rst k :: rest →
      s.decoders.length ≤ k → step s = .fault .noDecoder

/-- 40_decoder_fsm.md section 3: the kinds of response by operation. -/
def Obligations.ResponseKindsByOperation : Prop :=
  ∀ (s t : State),
    (exec .feedStart s = .next t → t.res = some .pending) ∧
    (∀ b, exec (.feedByte b) s = .next t → t.res = some .pending ∨ t.res = some .error) ∧
    (exec .feedTerm s = .next t → t.res = some .error ∨ t.res = some .empty ∨ ∃ w, t.res = some (.data w))

/-- 40_decoder_fsm.md section 3 and 30_encoding.md section 3: `Data` and `Empty` are answered to exactly the
terminators that arrive at cursor 6, so to no other byte and to no frame of another length. -/
def Obligations.DataOrEmptyExactlyAtSeventhByte : Prop :=
  ∀ (s : State) (d : Decoder) (b : Byte), s.decoders[s.current]? = some d →
    s.cfg.startMarker ≠ s.cfg.terminator →
    ∃ t, step (s.withInput (.feed b)) = .next t ∧
      ((t.res = some .empty ∨ ∃ w, t.res = some (.data w)) ↔
        b = s.cfg.terminator ∧ d.position.val + 1 = Config.frameLen)

/-- 40_decoder_fsm.md R66: a step on an offered byte is the transition function of the source, its three
branches tested in order, on the decoder the byte is offered to. -/
def Obligations.StepIsSourceTransitionFunction : Prop :=
  ∀ (s : State) (k : Nat) (b : Byte) (d : Decoder) (ts : List Txn) (rest : List Event),
    s.frameIn = none → s.inputs = .offer (.feed k b :: ts) :: rest →
    (feedTargets (.feed k b :: ts)).Nodup → s.decoders[k]? = some d →
    ∃ t, step s = .next t ∧ t.res = some (feedRule s.cfg b d).2 ∧
      t.decoders = s.decoders.set k (feedRule s.cfg b d).1

/-- 40_decoder_fsm.md R71: whatever partial frame a start marker drops, and whatever its decoder held, the
response is `Pending` and what follows differs in stale bytes only. -/
def Obligations.StartMarkerForgetsPartialFrame : Prop :=
  ∀ (s : State) (d e : Decoder), s.current < s.decoders.length →
    ∃ t u, exec .feedStart (s.setDecoder s.current d) = .next t ∧
      exec .feedStart (s.setDecoder s.current e) = .next u ∧
      t.res = some .pending ∧ u.res = some .pending ∧ t.SameLive u

/-! ### The frame check -/

/-- 41_frame_check.md R77: FRAME_DECODE answers `Error` for exactly the lengths other than FRAME_LEN, and
FRAME_BADLEN answers it with no decoder written. -/
def Obligations.BadLengthIsTheOnlyFrameError : Prop :=
  (∀ (c : Config) (frame : List Byte), frameDecode c frame = .error ↔ frame.length ≠ Config.frameLen) ∧
    ∀ (s : State) (body : List Byte), (s.cfg.wrap body).length ≠ Config.frameLen →
      ∃ t, exec (.frameBadLen body) s = .next t ∧ t.res = some .error ∧ t.decoders = s.decoders

/-- 41_frame_check.md R80: `Empty` is answered for exactly the sentinel frame, byte for byte, and carries
value 0; under the default constants the sentinel is 06 00 00 00 80 00 0D. -/
def Obligations.EmptyIsExactlyTheSentinel : Prop :=
  (∀ (c : Config) (frame : List Byte), frameDecode c frame = .empty ↔ frame = c.emptyPattern.toList) ∧
    Config.default.emptyPattern.toList = [0x06, 0x00, 0x00, 0x00, 0x80, 0x00, 0x0D] ∧
    (∀ draw, Decoded.empty.resWord draw = 0) ∧
    ∀ s : State, ∃ t, exec .frameEmpty s = .next t ∧ t.res = some .empty ∧ t.decoders = s.decoders

/-- 41_frame_check.md R78 and R79: FRAME_DATA answers a word whose byte lane k is payload byte k+1, restored
where mask bit 7-k is set (0x00 to the start marker, any other value to the terminator) and as stored
where it is clear; no decoder is written. That mask bits 3:0 select nothing, and make no frame ill formed,
is the spec's decision D6 (log entry 13). -/
def Obligations.FrameDataRestoresAndAssembles : Prop :=
  ∀ (s : State) (b1 b2 b3 b4 mask : Byte),
    s.cfg.wrap (dataBody b1 b2 b3 b4 mask) ≠ s.cfg.emptyPattern.toList →
    ∃ t w, exec (.frameData b1 b2 b3 b4 mask) s = .next t ∧ t.res = some (.data w) ∧
      t.decoders = s.decoders ∧
      ∀ k : Fin 4, w.extractLsb' (8 * k.val) 8 =
        if mask.getLsbD (7 - k.val) then
          (if #v[b1, b2, b3, b4][k.val] = 0x00 then s.cfg.startMarker else s.cfg.terminator)
        else #v[b1, b2, b3, b4][k.val]

/-- Frame of ENCODE and of the three FRAME operations: no decoder, no constant and nothing still offered
changes; ENCODE answers on the encode port only, a FRAME operation on the decode port only. -/
def Obligations.EncodeAndFrameRowsKeepDecoders : Prop :=
  ∀ (s t : State) (i : Instr), exec i s = .next t →
    ((∃ w, i = .encode w) → t.res = s.res ∧ t.decoders = s.decoders ∧ t.cfg = s.cfg ∧
      t.current = s.current ∧ t.frameIn = s.frameIn ∧ t.inputs = s.inputs ∧ t.draws = s.draws) ∧
    ((i = .frameEmpty ∨ (∃ body, i = .frameBadLen body) ∨ ∃ b1 b2 b3 b4 m, i = .frameData b1 b2 b3 b4 m) →
      t.encFrame = s.encFrame ∧ t.decoders = s.decoders ∧ t.cfg = s.cfg ∧ t.current = s.current ∧
      t.frameIn = s.frameIn ∧ t.inputs = s.inputs)

/-- 30_encoding.md section 3 and the model's choice D6: mask bits 3:0 select nothing. Two data frames that
differ in them alone answer the same. -/
def Obligations.LowMaskBitsSelectNothing : Prop :=
  ∀ (s t u : State) (b1 b2 b3 b4 m n : Byte),
    (Instr.frameData b1 b2 b3 b4 m).wellFormed s.cfg → (Instr.frameData b1 b2 b3 b4 n).wellFormed s.cfg →
    m.extractLsb' 4 4 = n.extractLsb' 4 4 →
    exec (.frameData b1 b2 b3 b4 m) s = .next t → exec (.frameData b1 b2 b3 b4 n) s = .next u →
    t.res = u.res

/-- 30_encoding.md section 8: with mask 0x00 the payload of 0x80000000 is the sentinel; with a low mask nibble
other than 0 it is the word (the model's choice D6). -/
def Obligations.SentinelShadowsOneWord : Prop :=
  ∀ s : State, s.cfg = Config.default →
    decode s.cfg (.frame [0x06, 0x00, 0x00, 0x00, 0x80, 0x00, 0x0D]) = .ok .frameEmpty ∧
    ∀ n : BitVec 4, n ≠ 0 →
      ∃ t, exec (.frameData 0x00 0x00 0x00 0x80 (n.setWidth 8)) s = .next t ∧
        t.res = some (.data 0x80000000)

/-- FEED_TERM performs the FRAME row of the frame it closes: the frame decodes to an instruction, and
FEED_TERM answers what that instruction answers on the same state, then writes the buffer and the cursor
(30_encoding.md section 3, 41_frame_check.md). It assumes the invariant on the decoder, which every step
keeps. -/
def Obligations.FeedTermPerformsItsFrameRow : Prop :=
  ∀ (s : State) (d : Decoder), s.decoders[s.current]? = some d → d.Accepting → d.Inv s.cfg →
    ∃ i t u e,
      decode s.cfg (.frame (d.buffer.toList.take d.position.val ++ [s.cfg.terminator])) = .ok i ∧
      exec .feedTerm s = .next t ∧ exec i s = .next u ∧ t = u.setDecoder s.current e ∧ e.position = 0

/-! ### The encoder -/

/-- 42_encoder.md R84 and R85: for every word, ENCODE answers START_TX, then for i from 0 to 7 the byte
CHAR_BASE plus nibble i, then TERMINATOR, and no decoder changes. -/
def Obligations.EncodeAnswersTheTenBytes : Prop :=
  ∀ (s : State) (w : Word), ∃ t f, exec (.encode w) s = .next t ∧ t.encFrame = some f ∧
    f[0] = s.cfg.startTx ∧
    (∀ i, i < 8 → f.toList[i + 1]? = some (s.cfg.charBase + BitVec.ofNat 8 (w.toNat / 16 ^ i % 16))) ∧
    f[9] = s.cfg.terminator ∧ t.decoders = s.decoders

/-- 42_encoder.md sections on the frame, under the default constants: byte 0 is 0x01, byte 9 is 0x0D, and
bytes 1 to 8 lie in 0x41 to 0x50, so none of them is 0x01, 0x06 or 0x0D. -/
def Obligations.EncodedFrameIsDelimited : Prop :=
  ∀ (s : State) (w : Word), s.cfg = Config.default → ∃ t f, exec (.encode w) s = .next t ∧
    t.encFrame = some f ∧ f[0] = 0x01 ∧ f[9] = 0x0D ∧
    ∀ i, i < 8 → ∃ x, f.toList[i + 1]? = some x ∧ 0x41 ≤ x ∧ x ≤ 0x50 ∧ x ≠ 0x01 ∧ x ≠ 0x06 ∧ x ≠ 0x0D

/-- 42_encoder.md: no word is rejected, and distinct words give distinct frames, whatever the constants. -/
def Obligations.DistinctWordsGiveDistinctFrames : Prop :=
  ∀ (s : State) (v w : Word), ∃ t u, exec (.encode v) s = .next t ∧ exec (.encode w) s = .next u ∧
    (t.encFrame = u.encFrame → v = w)

/-- 41_frame_check.md R83: FRAME_DECODE accepts no encoded frame as data. -/
def Obligations.EncodedFrameIsNoDataFrame : Prop :=
  ∀ (c : Config) (w : Word), (encodeWord c w).toList.length = Config.encLen ∧
    frameDecode c (encodeWord c w).toList = .error

/-- 42_encoder.md, the asymmetry of the two formats: an encoded frame fed to a decoder in any state is never
answered by `Data` or `Empty`. From cursor 0 every byte is rejected; from any other the decoder ends
stuck and the terminator is rejected. -/
def Obligations.EncodedFrameNeverDecodes : Prop :=
  ∀ (s : State) (d : Decoder) (w : Word), s.decoders[s.current]? = some d → s.cfg.Wf → s.cfg.LettersApart →
    ∃ rs t, feedAll (encodeWord s.cfg w).toList s = some (rs, t) ∧
      (∀ r ∈ rs, r = .pending ∨ r = .error) ∧ rs.length = Config.encLen ∧ rs.getLast? = some .error ∧
      (d.position = 0 → rs = List.replicate Config.encLen .error ∧ t.decoders = s.decoders) ∧
      (d.position ≠ 0 → ∃ e, t.decoders[s.current]? = some e ∧ e.Stuck)

/-! ### Encodings -/

/-- Decoding the encoding of a well-formed instruction gives it back, with every operand the encoding admits,
for every configuration the spec lets a model assume. -/
def Obligations.DecodeOfEncode : Prop :=
  ∀ (c : Config) (i : Instr), c.Wf → i.wellFormed c → decode c (encode c i) = .ok i

/-- What decodes is well formed and is encoded as it stood at the port: no two port inputs decode to one
instruction. -/
def Obligations.EncodeOfDecode : Prop :=
  ∀ (c : Config) (p : PortInput) (i : Instr), decode c p = .ok i → i.wellFormed c ∧ encode c i = p

/-- 30_encoding.md R51: the byte alone selects the FEED operation, and exactly one of the three. -/
def Obligations.FeedClassification : Prop :=
  ∀ (c : Config) (b : Byte), c.startMarker ≠ c.terminator →
    (decode c (.feed b) = .ok .feedStart ↔ b = c.startMarker) ∧
    (decode c (.feed b) = .ok .feedTerm ↔ b = c.terminator) ∧
    ∀ x, decode c (.feed b) = .ok (.feedByte x) ↔ x = b ∧ b ≠ c.startMarker ∧ b ≠ c.terminator

/-- Words written out from spec/opcode_table.json and 30_encoding.md decode to the instructions they
stand for. -/
def Obligations.WrittenOutWordsDecode : Prop :=
  decode Config.default (.feed 0b00000110) = .ok .feedStart ∧
    decode Config.default (.feed 0b00001101) = .ok .feedTerm ∧
    decode Config.default (.feed 0b00010001) = .ok (.feedByte 0x11) ∧
    decode Config.default (.enc 0x12345678) = .ok (.encode 0x12345678) ∧
    decode Config.default (.frame [0b00000110, 0b00001101]) = .ok (.frameBadLen []) ∧
    decode Config.default (.frame [0b00000110, 0, 0, 0, 0b10000000, 0, 0b00001101]) = .ok .frameEmpty ∧
    decode Config.default (.frame [0b00000110, 0x11, 0x22, 0x33, 0x44, 0xF0, 0b00001101]) =
      .ok (.frameData 0x11 0x22 0x33 0x44 0xF0)

/-- The model's choice (log entry 22), after 30_encoding.md section 3: bytes at FRAME_DECODE's input that are
no completed frame are refused by name, and only they. -/
def Obligations.OnlyCompletedFramesAreDecoded : Prop :=
  ∀ (s : State) (bytes : List Byte), s.frameIn = some bytes →
    ((∃ why, step s = .refused (.undecodable why)) ↔
      (bytes.length < 2 ∨ Config.capacity < bytes.length ∨ bytes.head? ≠ some s.cfg.startMarker ∨
        bytes.getLast? ≠ some s.cfg.terminator))

/-! ### The step -/

/-- A step runs the decoded instruction: of the frame at the internal input; of a byte, on the decoder it is
offered to; of a word. Around it the step clears the outputs and takes the transaction off the offer. The
first clause, a FRAME row performed from the internal input before any offer, is the model's choice (log
entry 9); so is taking the first transaction off the offer, one a step (log entry 7). -/
def Obligations.StepRunsTheDecodedInstruction : Prop :=
  (∀ (s : State) (bytes : List Byte) (i : Instr), s.frameIn = some bytes →
    decode s.cfg (.frame bytes) = .ok i →
    step s = exec i { s with frameIn := none, res := none, encFrame := none }) ∧
  (∀ (s : State) (k : Nat) (b : Byte) (ts : List Txn) (rest : List Event) (i : Instr), s.frameIn = none →
    s.inputs = .offer (.feed k b :: ts) :: rest → (feedTargets (.feed k b :: ts)).Nodup →
    decode s.cfg (.feed b) = .ok i →
    step s = exec i { s with current := k, inputs := pushRest ts rest, res := none, encFrame := none }) ∧
  ∀ (s : State) (w : Word) (ts : List Txn) (rest : List Event) (i : Instr), s.frameIn = none →
    s.inputs = .offer (.enc w :: ts) :: rest → (feedTargets ts).Nodup →
    decode s.cfg (.enc w) = .ok i →
    step s = exec i { s with inputs := pushRest ts rest, res := none, encFrame := none }

/-- 40_decoder_fsm.md R70: an empty poll changes no state and no response is produced. -/
def Obligations.EmptyPollChangesNothing : Prop :=
  ∀ (s : State), s.frameIn = none →
    (s.inputs = [] → step s = .next { s with res := none, encFrame := none }) ∧
    ∀ rest, s.inputs = .offer [] :: rest →
      step s = .next { s with inputs := rest, res := none, encFrame := none }

/-- 70_reset_and_hazards.md section 4: a transaction offered to ports the machine has is always enabled, and
exactly one port answers it. -/
def Obligations.OfferedTransactionIsAlwaysEnabled : Prop :=
  ∀ (s : State) (x : Txn) (ts : List Txn) (rest : List Event), s.frameIn = none →
    s.inputs = .offer (x :: ts) :: rest → (feedTargets (x :: ts)).Nodup →
    (∀ k b, x = .feed k b → k < s.decoders.length) →
    ∃ t, step s = .next t ∧ t.res.isSome = !t.encFrame.isSome ∧
      (t.encFrame.isSome ↔ ∃ w, x = .enc w)

/-- 20_memory.md section 4: an offer is refused exactly when two of its FEEDs go to one decoder. The spec asks
that such a pair be refused; that the WHOLE offer is, before any of its transactions is performed, an
independent ENCODE first in it included, is the model's deduction (log entry 11). -/
def Obligations.ConcurrentFeedsAreRefused : Prop :=
  ∀ (s : State) (ts : List Txn) (rest : List Event), s.frameIn = none → s.inputs = .offer ts :: rest →
    (step s = .refused .concurrentFeed ↔
      ∃ (i j k : Nat) (a b : Byte), i < j ∧ ts[i]? = some (.feed k a) ∧ ts[j]? = some (.feed k b))

/-- Different decoders share nothing (20_memory.md section 4, 10_state.md section 4): two FEEDs offered to
different decoders at the same time give the same decoders and the same two responses, whichever of
them is performed first. -/
def Obligations.FeedsOnDifferentDecodersCommute : Prop :=
  ∀ (s : State) (k l : Nat) (a b : Byte) (rest : List Event), s.frameIn = none → k ≠ l →
    k < s.decoders.length → l < s.decoders.length →
    ∃ t t' u u', step { s with inputs := .offer [.feed k a, .feed l b] :: rest } = .next t ∧
      step t = .next t' ∧
      step { s with inputs := .offer [.feed l b, .feed k a] :: rest } = .next u ∧ step u = .next u' ∧
      t'.decoders = u'.decoders ∧ t.res = u'.res ∧ t'.res = u.res ∧ t'.inputs = rest ∧ u'.inputs = rest

/-- An ENCODE and a FEED never interact (20_memory.md section 4): in either order they give the same decoders
and the same two responses. -/
def Obligations.EncodeAndFeedCommute : Prop :=
  ∀ (s : State) (k : Nat) (b : Byte) (w : Word) (rest : List Event), s.frameIn = none →
    k < s.decoders.length →
    ∃ t t' u u', step { s with inputs := .offer [.feed k b, .enc w] :: rest } = .next t ∧
      step t = .next t' ∧
      step { s with inputs := .offer [.enc w, .feed k b] :: rest } = .next u ∧ step u = .next u' ∧
      t'.decoders = u'.decoders ∧ t.res = u'.res ∧ t'.encFrame = u.encFrame ∧
      t.res.isSome ∧ u.encFrame.isSome

/-- 10_state.md sections 2 and 1: no transaction can read an earlier response. Whatever the outputs and the
counter of free draws are, the next step answers the same and leaves the same decoders. -/
def Obligations.EarlierResponsesAreNotRead : Prop :=
  ∀ (s : State) (r : Option Decoded) (f : Option EncFrame) (n : Nat),
    BothAnswer (fun t u => { t with draws := u.draws } = u)
      (step { s with res := r, encFrame := f, draws := n }) (step s)

/-! ### Whole-machine rules -/

/-- The invariant of 10_state.md section 1 is kept by every step, from every state that meets it. -/
def Obligations.StepKeepsFrameInvariant : Prop :=
  ∀ (s t : State), s.Inv → step s = .next t → t.Inv

/-- 10_state.md section 3, 60_exceptions.md sections 2 and 3: no step changes a constant or the number of
decoders, and no step leaves a frame at the internal input, so no run from reset performs a FRAME
operation outside FEED_TERM. -/
def Obligations.StepKeepsBuildTimeFacts : Prop :=
  ∀ (s t : State), step s = .next t →
    t.cfg = s.cfg ∧ t.decoders.length = s.decoders.length ∧ t.frameIn = none

/-- 10_state.md section 1: only a FEED to a decoder, or its reset, changes it. -/
def Obligations.OnlyItsOwnFeedChangesDecoder : Prop :=
  ∀ (s t : State) (k : Nat), step s = .next t → t.decoders[k]? ≠ s.decoders[k]? →
    s.frameIn = none ∧ ∃ rest, s.inputs = .rst k :: rest ∨ ∃ b ts, s.inputs = .offer (.feed k b :: ts) :: rest

/-- 10_state.md section 4: stale bytes are not observable. Two states that differ in bytes at or above the
cursor only both stop for the same reason, or go on with the same responses to states that differ in
such bytes only. -/
def Obligations.StaleBytesAreNotObservable : Prop :=
  ∀ (s t : State), s.SameLive t → BothAnswer State.SameLive (step s) (step t)

/-- 60_exceptions.md section 1, the table of causes: a FEED answers `Error` exactly when the table gives a
cause, and each cause comes with its condition and the state it leaves. The labels ERR_NOSYNC,
ERR_OVERFLOW and ERR_LENGTH are the spec's own decision D15 (log entry 21), not on the port. The slots
that ERR_LENGTH leaves as they were are the subject of `FeedTermClosesFrameOrRejects`. -/
def Obligations.EveryErrorHasItsCause : Prop :=
  ∀ (s : State) (d : Decoder) (b : Byte), s.decoders[s.current]? = some d →
    s.cfg.startMarker ≠ s.cfg.terminator →
    ∃ t, step (s.withInput (.feed b)) = .next t ∧
      (t.res = some .error ↔ (errorCause s.cfg b d).isSome) ∧
      (errorCause s.cfg b d = some .noSync ↔ d.position.val = 0 ∧ b ≠ s.cfg.startMarker) ∧
      (errorCause s.cfg b d = some .overflow ↔ d.Stuck ∧ b ≠ s.cfg.startMarker) ∧
      (errorCause s.cfg b d = some .length ↔
        b = s.cfg.terminator ∧ 1 ≤ d.position.val ∧ d.position.val ≤ 9 ∧ d.position.val ≠ 6) ∧
      (errorCause s.cfg b d = some .noSync ∨ errorCause s.cfg b d = some .overflow →
        t.decoders = s.decoders) ∧
      (errorCause s.cfg b d = some .length →
        ∃ (e : Decoder) (h : d.position.val < Config.capacity), t.decoders = s.decoders.set s.current e ∧
          e.position = 0 ∧ e.buffer[d.position.val] = b)

/-- 30_encoding.md section 2: the two lanes of the decode port (the codes are the spec's decision D4; the
word of `Pending` and `Error` is free and nothing is said of it). -/
def Obligations.PortLanesOfResponse : Prop :=
  ∀ s : State,
    (∀ w, s.res = some (.data w) → s.resTag = some 1 ∧ s.resWord = some w) ∧
    (s.res = some .empty → s.resTag = some 2 ∧ s.resWord = some 0) ∧
    (s.res = some .pending → s.resTag = some 0 ∧ s.resWord.isSome) ∧
    (s.res = some .error → s.resTag = some 3 ∧ s.resWord.isSome) ∧
    (s.res = none → s.resTag = none ∧ s.resWord = none)

/-! ### Streams -/

/-- 40_decoder_fsm.md section 3, the stuck state: every sequence of bytes without a start marker, terminators
included, is answered by `Error` throughout and changes no decoder. That an overflow sticks until a start
marker is the spec's decision D12 (log entry 14). -/
def Obligations.StuckDecoderAnswersOnlyError : Prop :=
  ∀ (s : State) (d : Decoder) (bs : List Byte), s.decoders[s.current]? = some d → d.Stuck →
    (∀ b ∈ bs, b ≠ s.cfg.startMarker) →
    ∃ t, feedAll bs s = some (List.replicate bs.length .error, t) ∧ t.decoders = s.decoders

/-- 40_decoder_fsm.md section 3, the whole course of an overflow: from any state a start marker and nine plain
bytes are answered by `Pending` and leave the decoder stuck; then every byte but a start marker is
answered by `Error`; then a start marker is answered by `Pending` and releases it. -/
def Obligations.OverflowSticksUntilStartMarker : Prop :=
  ∀ (s : State) (d : Decoder) (fill more : List Byte), s.decoders[s.current]? = some d →
    fill.length = 9 → (∀ b ∈ fill, b ≠ s.cfg.startMarker ∧ b ≠ s.cfg.terminator) →
    (∀ b ∈ more, b ≠ s.cfg.startMarker) →
    ∃ t e u e',
      feedAll (s.cfg.startMarker :: fill ++ more) s =
        some (List.replicate 10 .pending ++ List.replicate more.length .error, t) ∧
      t.decoders[s.current]? = some e ∧ e.Stuck ∧ e.buffer.toList = s.cfg.startMarker :: fill ∧
      step (t.withInput (.feed s.cfg.startMarker)) = .next u ∧ u.res = some .pending ∧
      u.decoders[s.current]? = some e' ∧ e'.position = 1

/-- 40_decoder_fsm.md and 60_exceptions.md section 1, resynchronisation: from any state, stuck or mid-frame,
a start marker, up to eight plain bytes and a terminator are answered by `Pending` and then by
FRAME_DECODE of exactly those bytes, and the decoder awaits a start marker again. -/
def Obligations.FrameIsDecodedFromAnyState : Prop :=
  ∀ (s : State) (d : Decoder) (body : List Byte), s.decoders[s.current]? = some d → s.cfg.Wf →
    body.length ≤ 8 → (∀ b ∈ body, b ≠ s.cfg.startMarker ∧ b ≠ s.cfg.terminator) →
    ∃ t e, feedAll (s.cfg.wrap body) s =
        some (List.replicate (body.length + 1) .pending ++ [frameDecode s.cfg (s.cfg.wrap body)], t) ∧
      t.decoders = s.decoders.set s.current e ∧ e.position = 0

/-- 41_frame_check.md, the reach of `Data`, under the default constants: from any state, every 32-bit word is
the answer to some frame of plain bytes; and 0x80000000 only to frames whose mask has bits 7:4 clear
and bits 3:0 not all clear (the model's choice D6). -/
def Obligations.EveryWordCanBeDelivered : Prop :=
  (∀ (s : State) (d : Decoder) (w : Word), s.decoders[s.current]? = some d → s.cfg = Config.default →
    ∃ b1 b2 b3 b4 m t,
      (∀ b ∈ [b1, b2, b3, b4, m], b ≠ s.cfg.startMarker ∧ b ≠ s.cfg.terminator) ∧
      feedAll (s.cfg.wrap [b1, b2, b3, b4, m]) s = some (List.replicate 6 .pending ++ [.data w], t)) ∧
  ∀ b1 b2 b3 b4 m : Byte,
    frameDecode Config.default (Config.default.wrap [b1, b2, b3, b4, m]) = .data 0x80000000 →
    m.extractLsb' 4 4 = 0 ∧ m.extractLsb' 0 4 ≠ 0
end

