-- ==== Sys2Proof/Laws/State.lean ====
section
/-! SUPPORT. What each update of the state leaves of each field, one lemma per field and update, so that no
proof unfolds a record update. -/

namespace Sys2Proof.Machine

section respond
variable (s : State) (m : Decoded)
@[simp] theorem State.respond_cfg : (s.respond m).cfg = s.cfg := rfl
@[simp] theorem State.respond_decoders : (s.respond m).decoders = s.decoders := rfl
@[simp] theorem State.respond_current : (s.respond m).current = s.current := rfl
@[simp] theorem State.respond_frameIn : (s.respond m).frameIn = s.frameIn := rfl
@[simp] theorem State.respond_inputs : (s.respond m).inputs = s.inputs := rfl
@[simp] theorem State.respond_res : (s.respond m).res = some m := rfl
@[simp] theorem State.respond_encFrame : (s.respond m).encFrame = s.encFrame := rfl
@[simp] theorem State.respond_draws : (s.respond m).draws = s.draws + 1 := rfl
end respond

section emit
variable (s : State) (f : EncFrame)
@[simp] theorem State.emit_cfg : (s.emit f).cfg = s.cfg := rfl
@[simp] theorem State.emit_decoders : (s.emit f).decoders = s.decoders := rfl
@[simp] theorem State.emit_current : (s.emit f).current = s.current := rfl
@[simp] theorem State.emit_frameIn : (s.emit f).frameIn = s.frameIn := rfl
@[simp] theorem State.emit_inputs : (s.emit f).inputs = s.inputs := rfl
@[simp] theorem State.emit_res : (s.emit f).res = s.res := rfl
@[simp] theorem State.emit_encFrame : (s.emit f).encFrame = some f := rfl
@[simp] theorem State.emit_draws : (s.emit f).draws = s.draws := rfl
end emit

section setDecoder
variable (s : State) (k : Nat) (d : Decoder)
@[simp] theorem State.setDecoder_cfg : (s.setDecoder k d).cfg = s.cfg := rfl
@[simp] theorem State.setDecoder_decoders : (s.setDecoder k d).decoders = s.decoders.set k d := rfl
@[simp] theorem State.setDecoder_current : (s.setDecoder k d).current = s.current := rfl
@[simp] theorem State.setDecoder_frameIn : (s.setDecoder k d).frameIn = s.frameIn := rfl
@[simp] theorem State.setDecoder_inputs : (s.setDecoder k d).inputs = s.inputs := rfl
@[simp] theorem State.setDecoder_res : (s.setDecoder k d).res = s.res := rfl
@[simp] theorem State.setDecoder_encFrame : (s.setDecoder k d).encFrame = s.encFrame := rfl
@[simp] theorem State.setDecoder_draws : (s.setDecoder k d).draws = s.draws := rfl
end setDecoder

section quiet
variable (s : State)
@[simp] theorem State.quiet_cfg : s.quiet.cfg = s.cfg := rfl
@[simp] theorem State.quiet_decoders : s.quiet.decoders = s.decoders := rfl
@[simp] theorem State.quiet_current : s.quiet.current = s.current := rfl
@[simp] theorem State.quiet_frameIn : s.quiet.frameIn = s.frameIn := rfl
@[simp] theorem State.quiet_inputs : s.quiet.inputs = s.inputs := rfl
@[simp] theorem State.quiet_res : s.quiet.res = none := rfl
@[simp] theorem State.quiet_encFrame : s.quiet.encFrame = none := rfl
@[simp] theorem State.quiet_draws : s.quiet.draws = s.draws := rfl
end quiet

section withInput
variable (s : State) (p : PortInput)
@[simp] theorem State.withInput_cfg : (s.withInput p).cfg = s.cfg := by cases p <;> rfl
@[simp] theorem State.withInput_decoders : (s.withInput p).decoders = s.decoders := by cases p <;> rfl
@[simp] theorem State.withInput_current : (s.withInput p).current = s.current := by cases p <;> rfl
end withInput

section decoder
variable (c : Config) (d : Decoder)
@[simp] theorem Decoder.start_position : (d.start c).position = 1 := rfl
@[simp] theorem Decoder.start_buffer : (d.start c).buffer = d.buffer.set 0 c.startMarker := rfl
@[simp] theorem Decoder.rewind_position : d.rewind.position = 0 := rfl
@[simp] theorem Decoder.rewind_buffer : d.rewind.buffer = d.buffer := rfl
@[simp] theorem Decoder.fresh_position : Decoder.fresh.position = 0 := rfl

variable (b : Byte) (h : d.position.val < Config.capacity)
@[simp] theorem Decoder.store_position : (d.store b h).position = d.position := rfl
@[simp] theorem Decoder.store_buffer : (d.store b h).buffer = d.buffer.set d.position.val b h := rfl
@[simp] theorem Decoder.advance_position : (d.advance h).position.val = d.position.val + 1 := rfl
@[simp] theorem Decoder.advance_buffer : (d.advance h).buffer = d.buffer := rfl
end decoder

@[simp] theorem State.resetWith_decoders (n : Nat) :
    (State.resetWith n).decoders = List.replicate n Decoder.fresh := rfl
@[simp] theorem State.resetWith_cfg (n : Nat) : (State.resetWith n).cfg = Config.default := rfl

end Sys2Proof.Machine
end

