-- ==== Sys2Proof/Laws/Operands.lean ====
section
/-! SUPPORT. What the operand forms compute, lane by lane and letter by letter. -/

namespace Sys2Proof.Machine

/-- The byte lanes of an assembled word are its four bytes, the first lowest (R79). -/
theorem assemble_lanes (r1 r2 r3 r4 : Byte) :
    (assemble r1 r2 r3 r4).extractLsb' 0 8 = r1 ∧ (assemble r1 r2 r3 r4).extractLsb' 8 8 = r2 ∧
      (assemble r1 r2 r3 r4).extractLsb' 16 8 = r3 ∧ (assemble r1 r2 r3 r4).extractLsb' 24 8 = r4 := by
  refine ⟨?_, ?_, ?_, ?_⟩ <;>
    · ext i hi
      simp only [assemble, BitVec.getElem_extractLsb', BitVec.getLsbD_or, BitVec.getLsbD_shiftLeft,
        BitVec.getLsbD_setWidth]
      interval_cases i <;> simp [BitVec.getLsbD_eq_getElem, BitVec.getLsbD_of_ge]

/-- Letter `i` of an encoded frame stands at index `i + 1` (R55, R85). -/
theorem encodeWord_letter (c : Config) (w : Word) {i : Nat} (hi : i < 8) :
    (encodeWord c w).toList[i + 1]? = some (letter c (nibble w i)) := by
  interval_cases i <;> rfl

/-- The delimiters of an encoded frame (R87). -/
theorem encodeWord_ends (c : Config) (w : Word) :
    (encodeWord c w)[0] = c.startTx ∧ (encodeWord c w)[9] = c.terminator := ⟨rfl, rfl⟩

/-- The character map is one-to-one, whatever CHAR_BASE is (R86). -/
theorem letter_injective (c : Config) {m n : BitVec 4} (h : letter c m = letter c n) : m = n := by
  have hw : m.setWidth 8 = n.setWidth 8 := by simpa [letter] using h
  simpa using congrArg (BitVec.setWidth 4) hw

end Sys2Proof.Machine
end

