-- ==== Sys2Proof/Laws/Ops.lean ====
section
/-! SUPPORT. One lemma per shared operation that says once everything it can do. Later proofs cite these and
do not unfold the operation. -/

namespace Sys2Proof.Machine

/-! ### A FEED and a reset on one decoder -/

/-- What a FEED does where its decoder exists. -/
theorem State.onCurrent_of_some {s : State} {d : Decoder} (h : s.decoders[s.current]? = some d)
    (f : Decoder → Decoder × Decoded) :
    s.onCurrent f = .next ((s.setDecoder s.current (f d).1).respond (f d).2) := by
  simp [State.onCurrent, h]

/-- What a FEED does where its decoder does not exist. -/
theorem State.onCurrent_of_none {s : State} (h : s.decoders[s.current]? = none)
    (f : Decoder → Decoder × Decoded) : s.onCurrent f = .fault .noDecoder := by
  simp [State.onCurrent, h]

/-- A FEED that goes on found its decoder, replaced it and answered. -/
theorem State.onCurrent_next {s t : State} {f : Decoder → Decoder × Decoded} (h : s.onCurrent f = .next t) :
    ∃ d, s.decoders[s.current]? = some d ∧ t = (s.setDecoder s.current (f d).1).respond (f d).2 := by
  cases hd : s.decoders[s.current]? with
  | none => simp [State.onCurrent_of_none hd] at h
  | some d => exact ⟨d, rfl, by simpa [State.onCurrent_of_some hd] using h.symm⟩

/-- A reset that goes on found its decoder and replaced it by a fresh one. -/
theorem State.resetDecoder_next {s t : State} {k : Nat} (h : s.resetDecoder k = .next t) :
    (∃ d, s.decoders[k]? = some d) ∧ t = s.setDecoder k Decoder.fresh := by
  unfold State.resetDecoder at h
  split at h
  · exact ⟨⟨_, ‹_›⟩, by simpa using h.symm⟩
  · cases h

/-! ### The meanings as updates of one decoder -/

/-- Every instruction either moves the current decoder and answers on the decode port, or answers alone. -/
theorem exec_next {i : Instr} {s t : State} (h : exec i s = .next t) :
    (∃ f d, s.decoders[s.current]? = some d ∧ t = (s.setDecoder s.current (f d).1).respond (f d).2 ∧
        (i = .feedStart ∧ f = Decoder.feedStart s.cfg ∨ i = .feedTerm ∧ f = Decoder.feedTerm s.cfg ∨
          ∃ b, i = .feedByte b ∧ f = Decoder.feedByte b)) ∨
      (∃ w, i = .encode w ∧ t = s.emit (encodeWord s.cfg w)) ∨
      (∃ frame, t = s.respond (frameDecode s.cfg frame) ∧
        ((∃ body, i = .frameBadLen body ∧ frame = s.cfg.wrap body) ∨
          i = .frameEmpty ∧ frame = s.cfg.emptyPattern.toList ∨
          ∃ b1 b2 b3 b4 m, i = .frameData b1 b2 b3 b4 m ∧ frame = s.cfg.wrap (dataBody b1 b2 b3 b4 m))) := by
  cases i with
  | feedStart =>
    obtain ⟨d, hd, rfl⟩ := State.onCurrent_next h
    exact .inl ⟨_, d, hd, rfl, .inl ⟨rfl, rfl⟩⟩
  | feedTerm =>
    obtain ⟨d, hd, rfl⟩ := State.onCurrent_next h
    exact .inl ⟨_, d, hd, rfl, .inr (.inl ⟨rfl, rfl⟩)⟩
  | feedByte b =>
    obtain ⟨d, hd, rfl⟩ := State.onCurrent_next h
    exact .inl ⟨_, d, hd, rfl, .inr (.inr ⟨b, rfl, rfl⟩)⟩
  | encode w => cases h; exact .inr (.inl ⟨w, rfl, rfl⟩)
  | frameBadLen body => cases h; exact .inr (.inr ⟨_, rfl, .inl ⟨body, rfl, rfl⟩⟩)
  | frameEmpty => cases h; exact .inr (.inr ⟨_, rfl, .inr (.inl ⟨rfl, rfl⟩)⟩)
  | frameData b1 b2 b3 b4 m =>
    cases h; exact .inr (.inr ⟨_, rfl, .inr (.inr ⟨b1, b2, b3, b4, m, rfl, rfl⟩)⟩)

/-! ### FEED_TERM and FEED_BYTE on one decoder -/

theorem Decoder.feedTerm_of_accepting {d : Decoder} (c : Config) (h : d.Accepting) :
    d.feedTerm c = ((d.store c.terminator h.2).rewind, frameDecode c (d.store c.terminator h.2).frame) := by
  simp only [Decoder.feedTerm, dif_pos h]

theorem Decoder.feedTerm_of_rejecting {d : Decoder} (c : Config) (h : ¬ d.Accepting) :
    d.feedTerm c = (d, .error) := by
  simp only [Decoder.feedTerm, dif_neg h]

theorem Decoder.feedByte_of_accepting {d : Decoder} (b : Byte) (h : d.Accepting) :
    d.feedByte b = ((d.store b h.2).advance h.2, .pending) := by
  simp only [Decoder.feedByte, dif_pos h]

theorem Decoder.feedByte_of_rejecting {d : Decoder} (b : Byte) (h : ¬ d.Accepting) :
    d.feedByte b = (d, .error) := by
  simp only [Decoder.feedByte, dif_neg h]

/-- The frame a stored byte completes: the bytes before the cursor, then the byte. -/
theorem Decoder.frame_store (d : Decoder) (b : Byte) (h : d.position.val < Config.capacity) :
    (d.store b h).frame = d.buffer.toList.take d.position.val ++ [b] := by
  have hl : d.position.val < d.buffer.toList.length := by simpa using h
  have hs : (d.buffer.set d.position.val b h).toList = d.buffer.toList.set d.position.val b := by
    simp [Vector.toList_set]
  simp only [Decoder.frame, Decoder.store_position, Decoder.store_buffer, hs, List.take_add_one]
  rw [List.getElem?_set_self hl]
  simp [List.take_set_of_le]

/-! ### FRAME_DECODE -/

theorem frameDecode_of_length {c : Config} {frame : List Byte} (h : frame.length ≠ Config.frameLen) :
    frameDecode c frame = .error := by
  simp [frameDecode, h]

theorem frameDecode_emptyPattern (c : Config) : frameDecode c c.emptyPattern.toList = .empty := by
  simp [frameDecode]

theorem frameDecode_of_data {c : Config} {frame : List Byte} (hl : frame.length = Config.frameLen)
    (he : frame ≠ c.emptyPattern.toList) :
    frameDecode c frame =
      .data (assemble (restore c frame 1) (restore c frame 2) (restore c frame 3) (restore c frame 4)) := by
  simp [frameDecode, hl, he]

/-! ### Taking what is offered -/

theorem State.fetch_of_frame {s : State} {bytes : List Byte} (h : s.frameIn = some bytes) :
    s.fetch = .input (.frame bytes) { s.quiet with frameIn := none } := by
  simp [State.fetch, h]

theorem State.fetch_of_nil {s : State} (hf : s.frameIn = none) (hi : s.inputs = []) :
    s.fetch = .idle s.quiet := by
  simp [State.fetch, State.takeInput, hf, hi]

theorem State.fetch_of_rst {s : State} {k : Nat} {rest : List Event} (hf : s.frameIn = none)
    (hi : s.inputs = .rst k :: rest) : s.fetch = .rst k { s.quiet with inputs := rest } := by
  simp [State.fetch, State.takeInput, hf, hi]

theorem State.fetch_of_poll {s : State} {rest : List Event} (hf : s.frameIn = none)
    (hi : s.inputs = .offer [] :: rest) : s.fetch = .idle { s.quiet with inputs := rest } := by
  simp [State.fetch, State.takeInput, hf, hi]

theorem State.fetch_of_offer {s : State} {t : Txn} {ts : List Txn} {rest : List Event} (hf : s.frameIn = none)
    (hi : s.inputs = .offer (t :: ts) :: rest) (hn : (feedTargets (t :: ts)).Nodup) :
    s.fetch = State.present { s.quiet with inputs := pushRest ts rest } t := by
  simp [State.fetch, State.takeInput, hf, hi, hn]

theorem State.fetch_of_clash {s : State} {t : Txn} {ts : List Txn} {rest : List Event} (hf : s.frameIn = none)
    (hi : s.inputs = .offer (t :: ts) :: rest) (hn : ¬ (feedTargets (t :: ts)).Nodup) : s.fetch = .clash := by
  simp [State.fetch, State.takeInput, hf, hi, hn]

/-- Everything the step can find to perform: one of six cases. -/
theorem State.fetch_cases (s : State) :
    (∃ bytes, s.frameIn = some bytes ∧ s.fetch = .input (.frame bytes) { s.quiet with frameIn := none }) ∨
      s.frameIn = none ∧
        ((s.inputs = [] ∧ s.fetch = .idle s.quiet) ∨
          (∃ k rest, s.inputs = .rst k :: rest ∧ s.fetch = .rst k { s.quiet with inputs := rest }) ∨
          (∃ rest, s.inputs = .offer [] :: rest ∧ s.fetch = .idle { s.quiet with inputs := rest }) ∨
          (∃ t ts rest, s.inputs = .offer (t :: ts) :: rest ∧ (feedTargets (t :: ts)).Nodup ∧
            s.fetch = State.present { s.quiet with inputs := pushRest ts rest } t) ∨
          ∃ t ts rest, s.inputs = .offer (t :: ts) :: rest ∧ ¬ (feedTargets (t :: ts)).Nodup ∧
            s.fetch = .clash) := by
  cases hf : s.frameIn with
  | some bytes => exact .inl ⟨bytes, rfl, State.fetch_of_frame hf⟩
  | none =>
    refine .inr ⟨rfl, ?_⟩
    match hi : s.inputs with
    | [] => exact .inl ⟨rfl, State.fetch_of_nil hf hi⟩
    | .rst k :: rest => exact .inr (.inl ⟨k, rest, rfl, State.fetch_of_rst hf hi⟩)
    | .offer [] :: rest => exact .inr (.inr (.inl ⟨rest, rfl, State.fetch_of_poll hf hi⟩))
    | .offer (t :: ts) :: rest =>
      by_cases hn : (feedTargets (t :: ts)).Nodup
      · exact .inr (.inr (.inr (.inl ⟨t, ts, rest, rfl, hn, State.fetch_of_offer hf hi hn⟩)))
      · exact .inr (.inr (.inr (.inr ⟨t, ts, rest, rfl, hn, State.fetch_of_clash hf hi hn⟩)))

end Sys2Proof.Machine
end

