-- ==== Sys2Proof/Laws/PerInstr.lean ====
section
/-! SUPPORT. One family of statements made per instruction: the form of its encoding at its port. -/

namespace Sys2Proof.Laws.PortForm

/-- A frame a decoder can complete (R56, R58). -/
abbrev CompletedFrame (c : Config) (bytes : List Byte) : Prop :=
  frameLenOk bytes.length ∧ bytes.head? = some c.startMarker ∧ bytes.getLast? = some c.terminator

/-- The encoding of a well-formed FEED row is one byte, that of ENCODE one word, and that of a FRAME row a
completed frame (R43, R50, R52, R56, R58). -/
def Statement (i : Instr) : Prop :=
  ∀ c : Config, c.Wf → i.wellFormed c →
    (∃ b, encode c i = .feed b) ∨ (∃ w, encode c i = .enc w) ∨
      ∃ bytes, encode c i = .frame bytes ∧ CompletedFrame c bytes

theorem feedStart : Statement .feedStart := fun c _ _ => .inl ⟨c.startMarker, rfl⟩
theorem feedTerm : Statement .feedTerm := fun c _ _ => .inl ⟨c.terminator, rfl⟩
theorem feedByte (b : Byte) : Statement (.feedByte b) := fun _ _ _ => .inl ⟨b, rfl⟩
theorem encode (w : Word) : Statement (.encode w) := fun _ _ _ => .inr (.inl ⟨w, rfl⟩)

theorem wrap_ends (c : Config) (body : List Byte) :
    (c.wrap body).head? = some c.startMarker ∧ (c.wrap body).getLast? = some c.terminator := by
  simp [Config.wrap, List.getLast?_cons]

theorem frameBadLen (body : List Byte) : Statement (.frameBadLen body) := by
  intro c _ hw
  have hl : frameLenOk (c.wrap body).length := (of_decide_eq_true hw).1
  exact .inr (.inr ⟨_, rfl, hl, wrap_ends c body⟩)

theorem frameEmpty : Statement .frameEmpty := by
  intro c hc _
  obtain ⟨-, h0, h6⟩ := hc
  refine .inr (.inr ⟨_, rfl, by simp [frameLenOk, Config.frameLen, Config.capacity], ?_, ?_⟩)
  · simpa [List.head?_eq_getElem?] using h0
  · simpa [List.getLast?_eq_getElem?] using h6

theorem frameData (b1 b2 b3 b4 mask : Byte) : Statement (.frameData b1 b2 b3 b4 mask) :=
  fun c _ _ => .inr (.inr ⟨_, rfl, by simp [frameLenOk, Config.wrap, Config.capacity], wrap_ends c _⟩)

end Sys2Proof.Laws.PortForm
end

