-- ==== Sys2Proof/Laws/Step.lean ====
section
/-! SUPPORT. What one step can do, said once: the inversion lemma that invariants are derived from. -/

namespace Sys2Proof.Machine

/-- What the FEED operation of a byte does to one decoder, by the classification of R51. -/
def feedOf (c : Config) (b : Byte) : Decoder → Decoder × Decoded :=
  if b = c.startMarker then Decoder.feedStart c
  else if b = c.terminator then Decoder.feedTerm c
  else Decoder.feedByte b

/-- A classified byte is performed on the current decoder. -/
theorem exec_decodeFeed (s : State) (b : Byte) : exec (decodeFeed s.cfg b) s = s.onCurrent (feedOf s.cfg b) := by
  unfold decodeFeed feedOf
  split
  · rfl
  · split <;> rfl

/-- A byte offered first is performed on the decoder it is offered to. -/
theorem step_of_feed {s : State} {k : Nat} {b : Byte} {ts : List Txn} {rest : List Event}
    (hf : s.frameIn = none) (hi : s.inputs = .offer (.feed k b :: ts) :: rest)
    (hn : (feedTargets (.feed k b :: ts)).Nodup) :
    step s =
      State.onCurrent { s.quiet with inputs := pushRest ts rest, current := k } (feedOf s.cfg b) := by
  simp only [step, State.fetch_of_offer hf hi hn, State.present, decode]
  exact exec_decodeFeed { s.quiet with inputs := pushRest ts rest, current := k } b

/-- A word offered first is performed on the encode port. -/
theorem step_of_enc {s : State} {w : Word} {ts : List Txn} {rest : List Event} (hf : s.frameIn = none)
    (hi : s.inputs = .offer (.enc w :: ts) :: rest) (hn : (feedTargets ts).Nodup) :
    step s = .next (State.emit { s.quiet with inputs := pushRest ts rest } (encodeWord s.cfg w)) := by
  simp only [step, State.fetch_of_offer hf hi (by simpa [feedTargets] using hn), State.present, decode]
  rfl

/-- The meaning of a decoded frame is FRAME_DECODE of it. -/
theorem exec_decodeBody (s : State) (body : List Byte) :
    exec (decodeBody s.cfg body) s = .next (s.respond (frameDecode s.cfg (s.cfg.wrap body))) := by
  unfold decodeBody
  split
  · split
    · rename_i h; rw [h]; rfl
    · rfl
  · rfl

/-- A frame that decodes is answered by FRAME_DECODE, and only by it. -/
theorem exec_of_decodeFrame {s : State} {bytes : List Byte} {i : Instr}
    (h : decode s.cfg (.frame bytes) = .ok i) : ∃ frame, exec i s = .next (s.respond (frameDecode s.cfg frame)) := by
  simp only [decode, decodeFrame] at h
  split at h
  · cases h
  split at h
  · cases h
  split at h
  · cases h
  split at h
  · cases h
  cases h
  exact ⟨_, exec_decodeBody s _⟩

/-- Everything a step that goes on can do to the decoders: nothing, make one fresh, or one FEED. -/
theorem step_next {s t : State} (h : step s = .next t) :
    t.cfg = s.cfg ∧ t.frameIn = none ∧
      (t.decoders = s.decoders ∨
        s.frameIn = none ∧
          ((∃ k rest, s.inputs = .rst k :: rest ∧ t.decoders = s.decoders.set k Decoder.fresh) ∨
            ∃ k b d ts rest, s.inputs = .offer (.feed k b :: ts) :: rest ∧ s.decoders[k]? = some d ∧
              t.res = some (feedOf s.cfg b d).2 ∧ t.decoders = s.decoders.set k (feedOf s.cfg b d).1)) := by
  rcases State.fetch_cases s with ⟨bytes, -, hs⟩ | ⟨hf, ⟨-, hs⟩ | ⟨k, rest, hi, hs⟩ | ⟨rest, -, hs⟩ |
    ⟨x, ts, rest, hi, hn, hs⟩ | ⟨x, ts, rest, -, -, hs⟩⟩
  · simp only [step, hs] at h
    split at h
    · obtain ⟨frame, he⟩ := exec_of_decodeFrame (s := { s.quiet with frameIn := none }) ‹_›
      rw [he] at h; cases h; exact ⟨rfl, rfl, .inl rfl⟩
    · cases h
  · simp only [step, hs] at h; cases h; exact ⟨rfl, hf, .inl rfl⟩
  · simp only [step, hs] at h
    obtain ⟨-, rfl⟩ := State.resetDecoder_next h
    exact ⟨rfl, hf, .inr ⟨hf, .inl ⟨k, rest, hi, rfl⟩⟩⟩
  · simp only [step, hs] at h; cases h; exact ⟨rfl, hf, .inl rfl⟩
  · cases x with
    | feed k b =>
      rw [step_of_feed hf hi hn] at h
      obtain ⟨d, hd, rfl⟩ := State.onCurrent_next h
      exact ⟨rfl, hf, .inr ⟨hf, .inr ⟨k, b, d, ts, rest, hi, hd, rfl, rfl⟩⟩⟩
    | enc w =>
      rw [step_of_enc hf hi (by simpa [feedTargets] using hn)] at h
      cases h; exact ⟨rfl, hf, .inl rfl⟩
  · simp only [step, hs] at h; cases h

end Sys2Proof.Machine
end

