-- ==== Sys2Proof/Tests/Slice0.lean ====
section
/-! SUPPORT. The model's own tests. Expected results are the spec's: the vectors V-… of 95_test_vectors.md, the
rules named, or hand calculation from them. Then, for every statement with hypotheses, a concrete state
and operands that meet all of them together. -/

namespace Sys2Proof.Tests

open Sys2Proof
open Sys2Proof.Machine

/-- A decoder with these bytes in its first slots, 0xEE in the others, and the cursor after them. -/
def holding (bytes : List Byte) : Decoder where
  buffer   := Vector.ofFn fun i => bytes.getD i.val 0xEE
  position := Fin.ofNat (Config.capacity + 1) bytes.length

/-- A machine with these decoders, the first the current one. -/
def machine (ds : List Decoder) : State := { State.reset with decoders := ds }

/-- A decoder stuck after an overflow, as in V-S5. -/
def stuck : Decoder := holding [0x06, 0x01, 0x02, 0x03, 0x04, 0x05, 0x07, 0x08, 0x09, 0x0A]

/-- The outcome is a next state of which `p` holds. -/
def goesOn (o : Host.Outcome State Fault Refusal) (p : State → Bool) : Bool :=
  match o with
  | .next t => p t
  | .fault _ => false
  | .refused _ => false

/-- The response and the cursor of decoder 0. -/
def answers (t : State) (m : Decoded) (p : Nat) : Bool :=
  t.res == some m && t.decoders[0]?.map (fun d => d.position.val) == some p

/-! ### Well-formedness: each check refuses an ill-formed term -/

theorem test_wf_feedByte_start : (Instr.feedByte 0x06).wellFormed Config.default = false := by decide
theorem test_wf_feedByte_term : (Instr.feedByte 0x0D).wellFormed Config.default = false := by decide
theorem test_wf_badLen_seven : (Instr.frameBadLen [1, 2, 3, 4, 5]).wellFormed Config.default = false := by decide
theorem test_wf_badLen_eleven :
    (Instr.frameBadLen [1, 2, 3, 4, 5, 7, 8, 9, 10]).wellFormed Config.default = false := by decide
theorem test_wf_data_sentinel : (Instr.frameData 0 0 0 0x80 0).wellFormed Config.default = false := by decide
theorem test_wf_accepts :
    ((Instr.feedByte 0x11).wellFormed Config.default && (Instr.frameBadLen []).wellFormed Config.default &&
      (Instr.frameData 0 0 0 0x80 1).wellFormed Config.default) = true := by decide

/-! ### Decoding: words written out from spec/opcode_table.json -/

theorem test_decode_feedStart : decode Config.default (.feed 0b00000110) = .ok .feedStart := by decide
theorem test_decode_feedTerm : decode Config.default (.feed 0b00001101) = .ok .feedTerm := by decide
theorem test_decode_feedByte : decode Config.default (.feed 0b10000110) = .ok (.feedByte 0x86) := by decide
theorem test_decode_encode :
    decode Config.default (.enc 0b00010010001101000101011001111000) = .ok (.encode 0x12345678) := by decide
theorem test_decode_frameBadLen :
    decode Config.default (.frame [0b00000110, 0b00010001, 0b00001101]) = .ok (.frameBadLen [0x11]) := by decide
theorem test_decode_frameEmpty :
    decode Config.default (.frame [0b00000110, 0b00000000, 0b00000000, 0b00000000, 0b10000000, 0b00000000,
      0b00001101]) = .ok .frameEmpty := by decide
theorem test_decode_frameData :
    decode Config.default (.frame [0b00000110, 0b00000001, 0b00000010, 0b00000011, 0b00000100, 0b11110000,
      0b00001101]) = .ok (.frameData 1 2 3 4 0xF0) := by decide
theorem test_decode_rejects_short : decode Config.default (.frame [0x06]) = .error .frameTooShort := by decide
theorem test_decode_rejects_long :
    decode Config.default (.frame [6, 1, 1, 1, 1, 1, 1, 1, 1, 1, 0x0D]) = .error .frameTooLong := by decide
theorem test_decode_rejects_no_start : decode Config.default (.frame [1, 0x0D]) = .error .noStart := by decide
theorem test_decode_rejects_no_term : decode Config.default (.frame [6, 1]) = .error .noTerminator := by decide

theorem test_table_feedStart : decodeTableWord 8 0x06 = some .feedStart := by decide
theorem test_table_encode : decodeTableWord 32 0xDEADBEEF = some (.encode 0xDEADBEEF) := by decide
/-- "index 0 is the most significant byte of the 56-bit pattern" (opcode_table.json, FRAME_EMPTY). -/
theorem test_table_frameEmpty : decodeTableWord 56 0x0600000080000D = some .frameEmpty := by decide
/-- The same frame, its first byte the least significant. -/
theorem test_table_frameEmpty_low_first : decodeTableWord 56 0x0D008000000006 = some .frameEmpty := by decide
theorem test_table_frameBadLen : decodeTableWord 24 0x0D1106 = some (.frameBadLen [0x11]) := by decide

/-! ### One step -/

/-- V-ST3: a start marker releases the stuck decoder. -/
theorem test_feedStart_stuck :
    goesOn (step ((machine [stuck]).withFetchWord 8 0x06)) (answers · .pending 1) = true := by decide
/-- V-ST2: slots 1 and 2 keep the stale 11 22. -/
theorem test_feedStart_stale :
    goesOn (exec .feedStart (machine [holding [0x06, 0x11, 0x22]])) (fun t =>
      t.decoders[0]?.map (fun d => (d.buffer.toList.take 3)) == some [0x06, 0x11, 0x22]) = true := by decide
/-- V-F3: 00 restores to 06, any other byte to 0D, in the reversed mask order. -/
theorem test_feedTerm_data :
    goesOn (step ((machine [holding [0x06, 0x00, 0x00, 0x01, 0xFF, 0xF0]]).withFetchWord 8 0x0D))
      (answers · (.data 0x0D0D0606) 0) = true := by decide
/-- V-T8: the terminator does not release the stuck decoder. -/
theorem test_feedTerm_stuck : goesOn (exec .feedTerm (machine [stuck])) (answers · .error 10) = true := by decide
/-- V-B4: the tenth byte is accepted and leaves the decoder stuck. -/
theorem test_feedByte_last :
    goesOn (step ((machine [holding [0x06, 0x01, 0x02, 0x03, 0x04, 0x05, 0x07, 0x08, 0x09]]).withFetchWord 8 0x0A))
      (fun t => answers t .pending 10 && t.decoders[0]?.map (fun d => d.buffer.toList.getLast?) == some (some 0x0A)) =
      true := by decide
/-- V-B1. -/
theorem test_feedByte_noSync : goesOn (exec (.feedByte 0x11) State.reset) (answers · .error 0) = true := by decide
/-- V-E6. -/
theorem test_encode_deadbeef :
    goesOn (step (State.reset.withFetchWord 32 0xDEADBEEF)) (fun t =>
      t.encFrame == some #v[0x01, 0x50, 0x4F, 0x4F, 0x4C, 0x4E, 0x4B, 0x4F, 0x4E, 0x0D]) = true := by decide
/-- V-E2: nibble 7 is the last letter. -/
theorem test_encode_top_nibble :
    goesOn (exec (.encode 0xF0000000) State.reset) (fun t =>
      t.encFrame == some #v[0x01, 0x41, 0x41, 0x41, 0x41, 0x41, 0x41, 0x41, 0x50, 0x0D]) = true := by decide
/-- V-T2's frame. -/
theorem test_frameBadLen :
    goesOn (step (State.reset.withFetchWord 16 0x0D06)) (fun t => t.res == some .error) = true := by decide
/-- V-F1's frame. -/
theorem test_frameEmpty :
    goesOn (step (State.reset.withFetchWord 56 0x0600000080000D)) (fun t => t.res == some .empty) = true := by decide
/-- V-F4: mask bit 4 governs b4. -/
theorem test_frameData_bit4 :
    goesOn (step (State.reset.withFetchWord 56 0x0611223300100D)) (fun t => t.res == some (.data 0x06332211)) =
      true := by decide
/-- V-F13: mask bits 3:0 select nothing (decision D6). -/
theorem test_frameData_low_bits :
    goesOn (exec (.frameData 0x11 0x22 0x33 0x44 0x0F) State.reset) (fun t => t.res == some (.data 0x44332211)) =
      true := by decide
/-- R48: two FEEDs to one decoder at the same time. -/
theorem test_concurrent_refused :
    step { State.reset with inputs := [.offer [.feed 0 0x06, .enc 0, .feed 0 0x11]] } =
      .refused .concurrentFeed := rfl
/-- R70: an empty poll. -/
theorem test_idle : step State.reset = .next State.reset := rfl

/-! ### Witnesses of the statements' hypotheses -/

/-- A word offered, a byte offered beside it, and a machine of two decoders. -/
def offering (ds : List Decoder) (txns : List Txn) : State := { machine ds with inputs := [.offer txns] }

theorem witness_ResetPutsEveryCursorAtZero :
    Decoder.fresh ∈ (State.resetWith 2).decoders ∧ Decoder.fresh ∈ State.reset.decoders := by decide
theorem witness_ResetMeetsFrameInvariant : Decoder.fresh ∈ (State.resetWith 2).decoders := by decide
theorem witness_RstMakesOneDecoderFresh :
    let s := { machine [stuck, stuck] with inputs := [.rst 1] }
    s.frameIn = none ∧ s.inputs = [.rst 1] ∧ 1 < s.decoders.length := by decide
theorem witness_FirstFeedAfterReset :
    1 < 2 ∧ (0x06 : Byte) = Config.default.startMarker ∧ (0x0D : Byte) ≠ Config.default.startMarker := by decide
theorem witness_FeedStartStartsFrameInEveryState :
    (machine [stuck]).decoders[(machine [stuck]).current]? = some stuck := by decide
/-- Both branches of FEED_TERM and FEED_BYTE at the ends of their ranges: cursors 0, 1, 9 and 10. -/
theorem witness_FeedTermClosesFrameOrRejects :
    (machine [stuck]).decoders[(machine [stuck]).current]? = some stuck ∧ ¬ stuck.Accepting ∧
      ¬ Decoder.fresh.Accepting ∧ (holding [0x06]).Accepting ∧
      (holding [0x06, 1, 2, 3, 4, 5, 7, 8, 9]).Accepting := by decide
theorem witness_FeedByteAppendsOrRejects :
    State.reset.decoders[State.reset.current]? = some Decoder.fresh ∧
      (0x00 : Byte) ≠ State.reset.cfg.startMarker ∧ (0x00 : Byte) ≠ State.reset.cfg.terminator := by decide
theorem witness_FeedKeepsEverythingElse :
    (∃ t, exec .feedStart (machine [stuck]) = .next t) ∧ (∃ t, exec .feedTerm (machine [stuck]) = .next t) ∧
      ∃ t, exec (.feedByte 1) (machine [stuck]) = .next t := ⟨⟨_, rfl⟩, ⟨_, rfl⟩, ⟨_, rfl⟩⟩
theorem witness_MissingDecoderFaults :
    (machine []).decoders[(machine []).current]? = none ∧
      (let s := { machine [stuck] with inputs := [.rst 1] }
       s.frameIn = none ∧ s.inputs = [.rst 1] ∧ s.decoders.length ≤ 1) := by decide
theorem witness_ResponseKindsByOperation :
    (∃ t, exec .feedStart State.reset = .next t) ∧ (∃ t, exec (.feedByte 1) State.reset = .next t) ∧
      ∃ t, exec .feedTerm State.reset = .next t := ⟨⟨_, rfl⟩, ⟨_, rfl⟩, ⟨_, rfl⟩⟩
theorem witness_DataOrEmptyExactlyAtSeventhByte :
    State.reset.decoders[State.reset.current]? = some Decoder.fresh ∧
      State.reset.cfg.startMarker ≠ State.reset.cfg.terminator := by decide
theorem witness_StepIsSourceTransitionFunction :
    let s := offering [stuck, Decoder.fresh] [.feed 1 0x06, .feed 0 0x0D]
    s.frameIn = none ∧ s.inputs = .offer (.feed 1 0x06 :: [.feed 0 0x0D]) :: [] ∧
      (feedTargets (.feed 1 0x06 :: [.feed 0 0x0D])).Nodup ∧ s.decoders[1]? = some Decoder.fresh := by decide
theorem witness_StartMarkerForgetsPartialFrame :
    (machine [stuck]).current < (machine [stuck]).decoders.length := by decide
theorem witness_BadLengthIsTheOnlyFrameError :
    (State.reset.cfg.wrap []).length ≠ Config.frameLen ∧
      (State.reset.cfg.wrap [1, 2, 3, 4, 5, 7, 8, 9]).length ≠ Config.frameLen := by decide
theorem witness_FrameDataRestoresAndAssembles :
    State.reset.cfg.wrap (dataBody 0 0 0 0x80 1) ≠ State.reset.cfg.emptyPattern.toList := by decide
theorem witness_EncodeAndFrameRowsKeepDecoders :
    (∃ t, exec (.encode 0) State.reset = .next t) ∧ (∃ t, exec .frameEmpty State.reset = .next t) ∧
      (∃ t, exec (.frameBadLen []) State.reset = .next t) ∧
      ∃ t, exec (.frameData 1 2 3 4 5) State.reset = .next t := ⟨⟨_, rfl⟩, ⟨_, rfl⟩, ⟨_, rfl⟩, ⟨_, rfl⟩⟩
theorem witness_LowMaskBitsSelectNothing :
    (Instr.frameData 1 2 3 4 0x80).wellFormed State.reset.cfg ∧ (Instr.frameData 1 2 3 4 0x8F).wellFormed State.reset.cfg ∧
      (0x80 : Byte).extractLsb' 4 4 = (0x8F : Byte).extractLsb' 4 4 ∧
      (∃ t, exec (.frameData 1 2 3 4 0x80) State.reset = .next t) ∧
      ∃ u, exec (.frameData 1 2 3 4 0x8F) State.reset = .next u := ⟨by decide, by decide, by decide, ⟨_, rfl⟩, ⟨_, rfl⟩⟩
theorem witness_SentinelShadowsOneWord : State.reset.cfg = Config.default ∧ (1 : BitVec 4) ≠ 0 := by decide
theorem witness_FeedTermPerformsItsFrameRow :
    let d := holding [0x06, 0, 0, 1, 0xFF, 0xF0]
    (machine [d]).decoders[(machine [d]).current]? = some d ∧ d.Accepting ∧ d.Inv (machine [d]).cfg := by decide
theorem witness_EncodedFrameIsDelimited : State.reset.cfg = Config.default := rfl
theorem witness_EncodedFrameNeverDecodes :
    State.reset.decoders[State.reset.current]? = some Decoder.fresh ∧ State.reset.cfg.Wf ∧
      State.reset.cfg.LettersApart ∧ Decoder.fresh.position = 0 ∧ (holding [0x06]).position ≠ 0 := by decide
theorem witness_DecodeOfEncode :
    Config.default.Wf ∧ (Instr.feedByte 0xFF).wellFormed Config.default ∧
      (Instr.frameBadLen [1, 2, 3, 4, 5, 7, 8, 9]).wellFormed Config.default ∧
      (Instr.frameData 0xFF 0xFF 0xFF 0xFF 0xFF).wellFormed Config.default := by decide
theorem witness_EncodeOfDecode :
    decode Config.default (.frame [0x06, 0x0D]) = .ok (.frameBadLen []) := by decide
theorem witness_FeedClassification : Config.default.startMarker ≠ Config.default.terminator := by decide
theorem witness_OnlyCompletedFramesAreDecoded :
    { State.reset with frameIn := some [0x06] }.frameIn = some [0x06] := rfl
theorem witness_StepRunsTheDecodedInstruction :
    ({ State.reset with frameIn := some [0x06, 0x0D] }.frameIn = some [0x06, 0x0D] ∧
      decode Config.default (.frame [0x06, 0x0D]) = .ok (.frameBadLen [])) ∧
    ((feedTargets (.feed 0 0x06 :: [.enc 1])).Nodup ∧ decode Config.default (.feed 0x06) = .ok .feedStart) ∧
      (feedTargets [.feed 0 0x06]).Nodup ∧ decode Config.default (.enc 1) = .ok (.encode 1) ∧
      (offering [stuck] [.enc 1, .feed 0 0x06]).inputs = .offer (.enc 1 :: [.feed 0 0x06]) :: [] := by decide
theorem witness_EmptyPollChangesNothing :
    State.reset.frameIn = none ∧ State.reset.inputs = [] ∧ (offering [stuck] []).inputs = .offer [] :: [] := by decide
theorem witness_OfferedTransactionIsAlwaysEnabled :
    let s := offering [stuck, stuck] [.feed 1 0x00, .feed 0 0x06, .enc 7]
    s.frameIn = none ∧ s.inputs = .offer (.feed 1 0x00 :: [.feed 0 0x06, .enc 7]) :: [] ∧
      (feedTargets (.feed 1 0x00 :: [.feed 0 0x06, .enc 7])).Nodup ∧ 1 < s.decoders.length := by decide
theorem witness_ConcurrentFeedsAreRefused :
    let s := offering [stuck] [.feed 0 1, .enc 7, .feed 0 2]
    s.frameIn = none ∧ s.inputs = .offer [.feed 0 1, .enc 7, .feed 0 2] :: [] := by decide
theorem witness_FeedsOnDifferentDecodersCommute :
    let s := machine [stuck, Decoder.fresh]
    s.frameIn = none ∧ 0 ≠ 1 ∧ 0 < s.decoders.length ∧ 1 < s.decoders.length := by decide
theorem witness_EncodeAndFeedCommute : State.reset.frameIn = none ∧ 0 < State.reset.decoders.length := by decide
theorem witness_StepKeepsFrameInvariant :
    let s := offering [holding [0x06, 0x11]] [.feed 0 0x22]
    s.Inv ∧ ∃ t, step s = .next t := ⟨by decide, ⟨_, rfl⟩⟩
theorem witness_StepKeepsBuildTimeFacts : ∃ t, step State.reset = .next t := ⟨_, rfl⟩
theorem witness_OnlyItsOwnFeedChangesDecoder :
    ∃ t, step (offering [Decoder.fresh] [.feed 0 0x06]) = .next t ∧
      t.decoders[0]? ≠ (offering [Decoder.fresh] [.feed 0 0x06]).decoders[0]? := ⟨_, rfl, by decide⟩
/-- Two fresh decoders whose buffers differ in every slot. -/
theorem witness_StaleBytesAreNotObservable :
    (machine [Decoder.fresh]).SameLive (machine [holding []]) ∧ Decoder.fresh.buffer ≠ (holding []).buffer :=
  ⟨⟨.cons ⟨rfl, fun i h => absurd h (Nat.not_lt_zero i.val)⟩ .nil, rfl⟩, by decide⟩
/-- Each cause of the table, at a boundary of its range. -/
theorem witness_EveryErrorHasItsCause :
    State.reset.decoders[State.reset.current]? = some Decoder.fresh ∧
      State.reset.cfg.startMarker ≠ State.reset.cfg.terminator ∧
      errorCause Config.default 0x0D Decoder.fresh = some .noSync ∧
      errorCause Config.default 0x0D stuck = some .overflow ∧
      errorCause Config.default 0x0D (holding [0x06]) = some .length ∧
      errorCause Config.default 0x0D (holding [0x06, 1, 2, 3, 4, 5, 7, 8, 9]) = some .length ∧
      errorCause Config.default 0x0D (holding [0x06, 1, 2, 3, 4, 5]) = none := by decide
theorem witness_PortLanesOfResponse :
    { State.reset with res := some (.data 1) }.res = some (.data 1) ∧ State.reset.res = none ∧
      { State.reset with res := some .empty }.res = some .empty ∧
      { State.reset with res := some .pending }.res = some .pending ∧
      { State.reset with res := some .error }.res = some .error := by decide
theorem witness_StuckDecoderAnswersOnlyError :
    (machine [stuck]).decoders[(machine [stuck]).current]? = some stuck ∧ stuck.Stuck ∧
      ∀ b ∈ [(0x0D : Byte), 0x00], b ≠ (machine [stuck]).cfg.startMarker := by decide
theorem witness_OverflowSticksUntilStartMarker :
    let fill : List Byte := [1, 2, 3, 4, 5, 7, 8, 9, 10]
    State.reset.decoders[State.reset.current]? = some Decoder.fresh ∧ fill.length = 9 ∧
      (∀ b ∈ fill, b ≠ State.reset.cfg.startMarker ∧ b ≠ State.reset.cfg.terminator) ∧
      ∀ b ∈ [(0x0B : Byte), 0x0D, 0x00], b ≠ State.reset.cfg.startMarker := by decide
theorem witness_FrameIsDecodedFromAnyState :
    let body : List Byte := [0x11, 0x22, 0x33, 0x44, 0x00]
    (machine [stuck]).decoders[(machine [stuck]).current]? = some stuck ∧ (machine [stuck]).cfg.Wf ∧
      body.length ≤ 8 ∧
      ∀ b ∈ body, b ≠ (machine [stuck]).cfg.startMarker ∧ b ≠ (machine [stuck]).cfg.terminator := by decide
theorem witness_EveryWordCanBeDelivered :
    State.reset.decoders[State.reset.current]? = some Decoder.fresh ∧ State.reset.cfg = Config.default ∧
      frameDecode Config.default (Config.default.wrap [0, 0, 0, 0x80, 1]) = .data 0x80000000 := by decide

end Sys2Proof.Tests
end

