-- ==== Sys2Proof/Proofs/Reset.lean ====
section
/-! The state after reset. -/

namespace Sys2Proof.Machine

/-- Every decoder of the reset state is a fresh one, whatever their number (R32, R100). -/
theorem State.eq_fresh_of_mem_resetWith {n : Nat} {d : Decoder} (hd : d ∈ (State.resetWith n).decoders) :
    d = Decoder.fresh := by
  rw [State.resetWith_decoders] at hd
  exact List.eq_of_mem_replicate hd

/-- The cursor of every decoder of the reset state is 0 (R32). -/
theorem State.position_of_mem_resetWith {n : Nat} {d : Decoder} (hd : d ∈ (State.resetWith n).decoders) :
    d.position = 0 := by
  rw [State.eq_fresh_of_mem_resetWith hd, Decoder.fresh_position]

/-- Settles O1: `State.reset` is `State.resetWith` at N_STREAMS, and every decoder there is fresh. -/
theorem resetPutsEveryCursorAtZero : Obligations.ResetPutsEveryCursorAtZero :=
  ⟨fun _ _ hd => State.position_of_mem_resetWith hd,
    fun _ hd => State.position_of_mem_resetWith (n := Config.nStreams) hd⟩

end Sys2Proof.Machine
end

