-- ==== Sys2Proof/Proofs/Encoding.lean ====
section
/-! The classification of a FEED byte, read backwards: from the instruction to the byte. -/

namespace Sys2Proof

/-- The first test of R51 is START_MARKER. -/
theorem decodeFeed_eq_feedStart_iff {c : Config} {b : Byte} :
    decodeFeed c b = .feedStart ↔ b = c.startMarker := by
  unfold decodeFeed
  split
  case isTrue hs => simp [hs]
  case isFalse hs => split <;> simp [hs]

/-- TERMINATOR is tested after START_MARKER (R51), which would win if the two were equal. -/
theorem decodeFeed_eq_feedTerm_iff {c : Config} {b : Byte} :
    decodeFeed c b = .feedTerm ↔ b ≠ c.startMarker ∧ b = c.terminator := by
  unfold decodeFeed
  split
  case isTrue hs => simp [hs]
  case isFalse hs =>
    split
    case isTrue ht => exact iff_of_true rfl ⟨hs, ht⟩
    case isFalse ht => simp [ht]

/-- A byte that fails both tests of R51 is the operand of its own FEED_BYTE. -/
theorem decodeFeed_eq_feedByte_iff {c : Config} {b x : Byte} :
    decodeFeed c b = .feedByte x ↔ x = b ∧ b ≠ c.startMarker ∧ b ≠ c.terminator := by
  unfold decodeFeed
  split
  case isTrue hs => simp [hs]
  case isFalse hs =>
    split
    case isTrue ht => simp [ht]
    case isFalse ht => simp [hs, ht, eq_comm]

/-- The byte port rejects nothing (R61): what stands there decodes to its class. -/
theorem decode_feed_eq_ok_iff {c : Config} {b : Byte} {i : Instr} :
    decode c (.feed b) = .ok i ↔ decodeFeed c b = i := by
  rw [decode, Except.ok.injEq]

/-- Settles O28: each class has its byte; that the markers differ makes the first test of R51 irrelevant to
TERMINATOR. -/
theorem feedClassification : Obligations.FeedClassification := by
  intro c b hne
  simp only [decode_feed_eq_ok_iff]
  have hterm : b ≠ c.startMarker ∧ b = c.terminator ↔ b = c.terminator :=
    and_iff_right_of_imp fun hb hs => hne (hs.symm.trans hb)
  exact ⟨decodeFeed_eq_feedStart_iff, decodeFeed_eq_feedTerm_iff.trans hterm, fun _ => decodeFeed_eq_feedByte_iff⟩

end Sys2Proof
end

