-- ==== Sys2Proof/Proofs/DecoderFsm.lean ====
section
/-! The decoder's state machine (40_decoder_fsm.md): each FEED operation as an update of the current decoder,
a step on an offered byte as the source's transition function, and what a start marker forgets. -/

namespace Sys2Proof.Machine

/-! ### One decoder -/

/-- A start writes slot 0 and leaves the slots from 1 on as they were (R67). -/
theorem Decoder.start_buffer_getElem (c : Config) (d : Decoder) (i : Fin Config.capacity) :
    (d.start c).buffer[i.val] = if i.val = 0 then c.startMarker else d.buffer[i.val] := by
  simp [Vector.getElem_set, eq_comm]

/-- A store writes the slot at the cursor and no other (R37). -/
theorem Decoder.store_buffer_getElem (d : Decoder) (b : Byte) (h : d.position.val < Config.capacity)
    (i : Fin Config.capacity) :
    (d.store b h).buffer[i.val] = if i.val = d.position.val then b else d.buffer[i.val] := by
  simp [Vector.getElem_set, eq_comm]

/-- Two decoders that have just started a frame agree on all that is live: the cursor and slot 0 (R29, R71). -/
theorem Decoder.sameLive_start (c : Config) (d e : Decoder) : (d.start c).SameLive (e.start c) := by
  refine ⟨rfl, fun i hi => ?_⟩
  have h0 : i.val = 0 := Nat.lt_one_iff.mp hi
  simp only [Decoder.start_buffer_getElem, if_pos h0]

theorem Decoder.SameLive.refl (d : Decoder) : d.SameLive d := ⟨rfl, fun _ _ => rfl⟩

/-- The three FEED operations, chosen by the classification of R51, are the three branches of R66. -/
theorem feedOf_eq_feedRule (c : Config) (b : Byte) (d : Decoder) : feedOf c b d = feedRule c b d := by
  by_cases hs : b = c.startMarker
  · subst hs
    simp only [feedOf, feedRule, if_true]
    rfl
  by_cases ht : b = c.terminator
  · simp only [feedOf, feedRule, if_neg hs, if_pos ht]
    subst ht
    by_cases ha : d.Accepting
    · rw [Decoder.feedTerm_of_accepting c ha, dif_pos ha]
      rfl
    · rw [Decoder.feedTerm_of_rejecting c ha, dif_neg ha]
  · simp only [feedOf, feedRule, if_neg hs, if_neg ht]
    by_cases ha : d.Accepting
    · rw [Decoder.feedByte_of_accepting b ha, dif_pos ha]
      rfl
    · rw [Decoder.feedByte_of_rejecting b ha, dif_neg ha]

/-! ### The current decoder -/

/-- A FEED that rejects leaves its decoder as it was, and so the whole list of decoders (R68, R69). -/
theorem State.decoders_set_current_self {s : State} {d : Decoder} (h : s.decoders[s.current]? = some d) :
    s.decoders.set s.current d = s.decoders := by
  obtain ⟨hk, rfl⟩ := List.getElem?_eq_some_iff.mp h
  exact List.set_getElem_self hk

theorem exec_feedStart_of_some {s : State} {d : Decoder} (h : s.decoders[s.current]? = some d) :
    exec .feedStart s = .next ((s.setDecoder s.current (d.start s.cfg)).respond .pending) :=
  State.onCurrent_of_some h (Decoder.feedStart s.cfg)

theorem exec_feedTerm_of_some {s : State} {d : Decoder} (h : s.decoders[s.current]? = some d) :
    exec .feedTerm s =
      .next ((s.setDecoder s.current (d.feedTerm s.cfg).1).respond (d.feedTerm s.cfg).2) :=
  State.onCurrent_of_some h (Decoder.feedTerm s.cfg)

theorem exec_feedByte_of_some {s : State} {d : Decoder} (b : Byte) (h : s.decoders[s.current]? = some d) :
    exec (.feedByte b) s = .next ((s.setDecoder s.current (d.feedByte b).1).respond (d.feedByte b).2) :=
  State.onCurrent_of_some h (Decoder.feedByte b)

/-- Settles O5: the decoder after is `Decoder.start`, and no branch tests the cursor. -/
theorem feedStartStartsFrameInEveryState : Obligations.FeedStartStartsFrameInEveryState := by
  intro s d hd
  refine ⟨_, d.start s.cfg, exec_feedStart_of_some hd, rfl, rfl, rfl, ?_, fun i hi => ?_⟩
  · exact Decoder.start_buffer_getElem s.cfg d 0
  · rw [Decoder.start_buffer_getElem, if_neg hi]

/-- Settles O6: the frame FEED_TERM checks is the one its own store completes. -/
theorem feedTermClosesFrameOrRejects : Obligations.FeedTermClosesFrameOrRejects := by
  intro s d hd
  refine ⟨_, exec_feedTerm_of_some hd, ?_⟩
  by_cases ha : d.Accepting
  · rw [if_pos ha, Decoder.feedTerm_of_accepting s.cfg ha, Decoder.frame_store]
    exact ⟨rfl, _, rfl, rfl, Decoder.store_buffer_getElem d s.cfg.terminator ha.2⟩
  · rw [if_neg ha, Decoder.feedTerm_of_rejecting s.cfg ha]
    exact ⟨rfl, State.decoders_set_current_self hd⟩

/-- Settles O7: the operand may be any byte, since the operation itself does not look at it. -/
theorem feedByteAppendsOrRejects : Obligations.FeedByteAppendsOrRejects := by
  intro s d b hd _ _
  refine ⟨_, exec_feedByte_of_some b hd, ?_⟩
  by_cases ha : d.Accepting
  · rw [if_pos ha, Decoder.feedByte_of_accepting b ha]
    exact ⟨rfl, _, rfl, rfl, Decoder.store_buffer_getElem d b ha.2⟩
  · rw [if_neg ha, Decoder.feedByte_of_rejecting b ha]
    exact ⟨rfl, State.decoders_set_current_self hd⟩

/-! ### What a start marker forgets -/

/-- Lists that differ at one decoder only, and there in stale bytes only (R29). -/
theorem forall₂_sameLive_set {d e : Decoder} (h : d.SameLive e) (ds : List Decoder) (k : Nat) :
    List.Forall₂ Decoder.SameLive (ds.set k d) (ds.set k e) := by
  induction ds generalizing k with
  | nil => exact .nil
  | cons x xs ih =>
    cases k with
    | zero => exact .cons h (List.forall₂_same.mpr fun y _ => Decoder.SameLive.refl y)
    | succ k => exact .cons (Decoder.SameLive.refl x) (ih k)

/-- FEED_START on a decoder put in the current one's place: nothing of what stood there before is left. -/
theorem exec_feedStart_setDecoder {s : State} (d : Decoder) (h : s.current < s.decoders.length) :
    exec .feedStart (s.setDecoder s.current d) =
      .next ((s.setDecoder s.current (d.start s.cfg)).respond .pending) := by
  have hd : (s.setDecoder s.current d).decoders[(s.setDecoder s.current d).current]? = some d :=
    List.getElem?_set_self h
  rw [exec_feedStart_of_some hd]
  simp [State.setDecoder]

/-- Settles O13: the two states after differ in the started decoder only, and there in stale bytes only. -/
theorem startMarkerForgetsPartialFrame : Obligations.StartMarkerForgetsPartialFrame := by
  intro s d e hk
  exact ⟨_, _, exec_feedStart_setDecoder d hk, exec_feedStart_setDecoder e hk, rfl, rfl,
    forall₂_sameLive_set (Decoder.sameLive_start s.cfg d e) s.decoders s.current, rfl⟩

/-! ### A step -/

/-- Settles O12: the step performs the FEED of the byte's class, which is the source's transition function. -/
theorem stepIsSourceTransitionFunction : Obligations.StepIsSourceTransitionFunction := by
  intro s k b d ts rest hf hi hn hd
  have hstep := (step_of_feed hf hi hn).trans (State.onCurrent_of_some hd (feedOf s.cfg b))
  rw [feedOf_eq_feedRule] at hstep
  exact ⟨_, hstep, rfl, rfl⟩

/-- Where nothing is found to perform, the step goes on to the state the fetch leaves (R70). -/
theorem step_of_idle {s t : State} (h : s.fetch = .idle t) : step s = .next t := by
  simp only [step, h]

/-- Settles O32: both kinds of empty poll are an idle fetch. -/
theorem emptyPollChangesNothing : Obligations.EmptyPollChangesNothing := by
  intro s hf
  exact ⟨fun hi => step_of_idle (State.fetch_of_nil hf hi),
    fun _ hi => step_of_idle (State.fetch_of_poll hf hi)⟩

end Sys2Proof.Machine
end

