-- ==== Sys2Proof/Proofs/FrameCheck.lean ====
section
/-! The frame check (41_frame_check.md): which frames FRAME_DECODE answers with which kind of response, what
each FRAME operation answers, and the word of a data frame lane by lane. -/

namespace Sys2Proof.Machine

/-! ### The kinds of FRAME_DECODE's response -/

/-- The length check is the only test that ends in `Error` (R77). -/
theorem frameDecode_eq_error_iff {c : Config} {frame : List Byte} :
    frameDecode c frame = .error ↔ frame.length ≠ Config.frameLen := by
  refine ⟨fun h hl => ?_, frameDecode_of_length⟩
  by_cases he : frame = c.emptyPattern.toList
  · rw [he, frameDecode_emptyPattern] at h
    cases h
  · rw [frameDecode_of_data hl he] at h
    cases h

/-- The sentinel has FRAME_LEN bytes, so it passes the length check before it is compared (R76, R80). -/
theorem frameDecode_eq_empty_iff {c : Config} {frame : List Byte} :
    frameDecode c frame = .empty ↔ frame = c.emptyPattern.toList := by
  refine ⟨fun h => ?_, fun he => he ▸ frameDecode_emptyPattern c⟩
  by_contra he
  by_cases hl : frame.length = Config.frameLen
  · rw [frameDecode_of_data hl he] at h
    cases h
  · rw [frameDecode_of_length hl] at h
    cases h

/-! ### The FRAME operations -/

theorem exec_frameBadLen_of_length {s : State} {body : List Byte}
    (h : (s.cfg.wrap body).length ≠ Config.frameLen) :
    exec (.frameBadLen body) s = .next (s.respond .error) := by
  rw [← frameDecode_of_length (c := s.cfg) h]
  rfl

theorem exec_frameEmpty (s : State) : exec .frameEmpty s = .next (s.respond .empty) := by
  rw [← frameDecode_emptyPattern s.cfg]
  rfl

/-- The word that FRAME_DECODE makes of a data frame (R76). -/
def frameWord (c : Config) (frame : List Byte) : Word :=
  assemble (restore c frame 1) (restore c frame 2) (restore c frame 3) (restore c frame 4)

theorem exec_frameData_of_ne {s : State} {b1 b2 b3 b4 mask : Byte}
    (h : s.cfg.wrap (dataBody b1 b2 b3 b4 mask) ≠ s.cfg.emptyPattern.toList) :
    exec (.frameData b1 b2 b3 b4 mask) s =
      .next (s.respond (.data (frameWord s.cfg (s.cfg.wrap (dataBody b1 b2 b3 b4 mask))))) := by
  rw [frameWord, ← frameDecode_of_data rfl h]
  rfl

/-- Settles O14: FRAME_DECODE tests the length first, and the two later branches are `Empty` and `Data`. -/
theorem badLengthIsTheOnlyFrameError : Obligations.BadLengthIsTheOnlyFrameError :=
  ⟨fun _ _ => frameDecode_eq_error_iff,
    fun _ _ hl => ⟨_, exec_frameBadLen_of_length hl, State.respond_res _ _, State.respond_decoders _ _⟩⟩

/-- Settles O15: of the three branches of FRAME_DECODE only the sentinel's is `Empty`. -/
theorem emptyIsExactlyTheSentinel : Obligations.EmptyIsExactlyTheSentinel :=
  ⟨fun _ _ => frameDecode_eq_empty_iff, rfl, fun _ => rfl,
    fun s => ⟨_, exec_frameEmpty s, State.respond_res _ _, State.respond_decoders _ _⟩⟩

/-! ### The word of a data frame -/

/-- Byte lane `k` of an assembled word is its `k`-th byte, the first lowest (R79). -/
theorem assemble_lane (r : Fin 4 → Byte) (k : Fin 4) :
    (assemble (r 0) (r 1) (r 2) (r 3)).extractLsb' (8 * k.val) 8 = r k := by
  obtain ⟨h0, h1, h2, h3⟩ := assemble_lanes (r 0) (r 1) (r 2) (r 3)
  match k with
  | 0 => exact h0
  | 1 => exact h1
  | 2 => exact h2
  | 3 => exact h3

/-- Byte lane `k` of a frame's word is its restored payload byte `k + 1`, which stands at index `k + 1` (R56, R79). -/
theorem frameWord_lane (c : Config) (frame : List Byte) (k : Fin 4) :
    (frameWord c frame).extractLsb' (8 * k.val) 8 = restore c frame (k.val + 1) :=
  assemble_lane (fun j => restore c frame (j.val + 1)) k

/-- In a data frame mask bit `7 - k` governs payload byte `k + 1` (R57, R78). -/
theorem restore_wrap_dataBody (c : Config) (b1 b2 b3 b4 mask : Byte) (k : Fin 4) :
    restore c (c.wrap (dataBody b1 b2 b3 b4 mask)) (k.val + 1) =
      if mask.getLsbD (7 - k.val) then
        (if #v[b1, b2, b3, b4][k.val] = 0x00 then c.startMarker else c.terminator)
      else #v[b1, b2, b3, b4][k.val] := by
  have hbit : 8 - (k.val + 1) = 7 - k.val := Nat.add_sub_add_right 7 1 k.val
  have hmask : (c.wrap (dataBody b1 b2 b3 b4 mask)).getD maskIndex 0 = mask := rfl
  have hbyte : (c.wrap (dataBody b1 b2 b3 b4 mask)).getD (k.val + 1) 0 = #v[b1, b2, b3, b4][k.val] := by
    match k with
    | 0 => rfl
    | 1 => rfl
    | 2 => rfl
    | 3 => rfl
  simp only [restore, hbit, hmask, hbyte]

/-- Settles O16: each lane of the frame's word is a restored byte of the frame. -/
theorem frameDataRestoresAndAssembles : Obligations.FrameDataRestoresAndAssembles := by
  intro s b1 b2 b3 b4 mask hne
  refine ⟨_, _, exec_frameData_of_ne hne, State.respond_res _ _, State.respond_decoders _ _, fun k => ?_⟩
  rw [frameWord_lane, restore_wrap_dataBody]

/-! ### Encoded frames -/

theorem length_encodeWord (c : Config) (w : Word) : (encodeWord c w).toList.length = Config.encLen :=
  Vector.length_toList

/-- Settles O24: an encoded frame fails the length check, since ENC_LEN is not FRAME_LEN. -/
theorem encodedFrameIsNoDataFrame : Obligations.EncodedFrameIsNoDataFrame := by
  intro c w
  have hl : (encodeWord c w).toList.length ≠ Config.frameLen := by
    rw [length_encodeWord]
    decide
  exact ⟨length_encodeWord c w, frameDecode_of_length hl⟩

end Sys2Proof.Machine
end

