-- ==== Sys2Proof/Proofs/Encoder.lean ====
section
/-! The encoder (42_encoder.md): what ENCODE answers, with the nibbles of the word by division. -/

namespace Sys2Proof.Machine

/-- ENCODE goes on in every state and for every word (R84). -/
theorem exec_encode (w : Word) (s : State) : exec (.encode w) s = .next (s.emit (encodeWord s.cfg w)) := rfl

/-- Nibble `i` is digit `i` of the word in base 16, the least significant first (R85). -/
theorem toNat_nibble (w : Word) (i : Nat) : (nibble w i).toNat = w.toNat / 16 ^ i % 16 := by
  rw [nibble, BitVec.extractLsb'_toNat, Nat.shiftRight_eq_div_pow, Nat.pow_mul]

/-- The letter of nibble `i` is CHAR_BASE plus the word's digit `i` (R86). -/
theorem letter_nibble (c : Config) (w : Word) (i : Nat) :
    letter c (nibble w i) = c.charBase + BitVec.ofNat 8 (w.toNat / 16 ^ i % 16) := by
  rw [letter, ← BitVec.ofNat_toNat, toNat_nibble]

/-- Settles O21: the letter at index `i + 1` is that of nibble `i`, which is digit `i` of the word. -/
theorem encodeAnswersTheTenBytes : Obligations.EncodeAnswersTheTenBytes := by
  intro s w
  obtain ⟨hstart, hterm⟩ := encodeWord_ends s.cfg w
  have hletters : ∀ i, i < 8 → (encodeWord s.cfg w).toList[i + 1]? =
      some (s.cfg.charBase + BitVec.ofNat 8 (w.toNat / 16 ^ i % 16)) := fun i hi => by
    rw [encodeWord_letter s.cfg w hi, letter_nibble]
  exact ⟨_, _, exec_encode w s, State.emit_encFrame _ _, hstart, hletters, hterm, State.emit_decoders _ _⟩

end Sys2Proof.Machine
end

