-- ==== Sys2Proof/Proofs/RoundTrip.lean ====
section
/-! Decoding and encoding are inverse to each other (30_encoding.md): which bytes are a completed frame, what a
completed frame decodes to, and the two round trips. -/

namespace Sys2Proof

open Sys2Proof.Laws.PortForm (CompletedFrame wrap_ends)

/-! ### Completed frames -/

/-- A completed frame is its body between the two markers, which are two bytes even where they are equal
(R56, R58). -/
theorem wrap_of_completedFrame {c : Config} {bytes : List Byte} (h : CompletedFrame c bytes) :
    c.wrap bytes.tail.dropLast = bytes := by
  obtain ⟨⟨hlen, -⟩, hhead, hlast⟩ := h
  match bytes with
  | b :: x :: xs =>
    have hb : b = c.startMarker := by simpa using hhead
    have hl : (x :: xs).getLast? = some c.terminator := by simpa using hlast
    rw [hb, Config.wrap, List.tail_cons, List.dropLast_append_getLast? c.terminator hl]

theorem completedFrame_wrap {c : Config} {body : List Byte} (h : frameLenOk (c.wrap body).length) :
    CompletedFrame c (c.wrap body) :=
  ⟨h, wrap_ends c body⟩

theorem tail_dropLast_wrap (c : Config) (body : List Byte) : (c.wrap body).tail.dropLast = body := by
  simp [Config.wrap]

theorem length_wrap (c : Config) (body : List Byte) : (c.wrap body).length = body.length + 2 := by
  simp [Config.wrap]

/-- A completed frame decodes to the class of its body (R59). -/
theorem decodeFrame_of_completedFrame {c : Config} {bytes : List Byte} (h : CompletedFrame c bytes) :
    decodeFrame c bytes = .ok (decodeBody c bytes.tail.dropLast) := by
  obtain ⟨⟨hmin, hmax⟩, hhead, hlast⟩ := h
  simp only [decodeFrame, if_neg (Nat.not_lt.mpr hmin), if_neg (Nat.not_lt.mpr hmax), hhead, hlast, ne_eq,
    not_true, if_false]

/-- Bytes that are no completed frame are rejected with a reason (R56, R58). -/
theorem decodeFrame_of_not_completedFrame {c : Config} {bytes : List Byte} (h : ¬ CompletedFrame c bytes) :
    ∃ why, decodeFrame c bytes = .error why := by
  unfold decodeFrame
  split
  · exact ⟨_, rfl⟩
  next hmin =>
    split
    · exact ⟨_, rfl⟩
    next hmax =>
      split
      · exact ⟨_, rfl⟩
      next hhead =>
        split
        · exact ⟨_, rfl⟩
        next hlast =>
          exact absurd ⟨⟨Nat.not_lt.mp hmin, Nat.not_lt.mp hmax⟩, not_not.mp hhead, not_not.mp hlast⟩ h

/-- What decodes at the internal port is a completed frame, and its instruction is the class of its body. -/
theorem decodeFrame_eq_ok_iff {c : Config} {bytes : List Byte} {i : Instr} :
    decodeFrame c bytes = .ok i ↔ CompletedFrame c bytes ∧ decodeBody c bytes.tail.dropLast = i := by
  by_cases h : CompletedFrame c bytes
  · simp only [decodeFrame_of_completedFrame h, Except.ok.injEq, and_iff_right h]
  · obtain ⟨why, hw⟩ := decodeFrame_of_not_completedFrame h
    simp only [hw, reduceCtorEq, h, false_and]

/-- The frame of a body of fitting length decodes to the class of that body. -/
theorem decode_wrap {c : Config} {body : List Byte} (h : frameLenOk (c.wrap body).length) :
    decode c (.frame (c.wrap body)) = .ok (decodeBody c body) := by
  rw [decode, decodeFrame_of_completedFrame (completedFrame_wrap h), tail_dropLast_wrap]

/-! ### The class of a body -/

/-- The sentinel is the frame of its five inner bytes (D13). -/
theorem emptyPattern_eq_wrap {c : Config} (h : c.Wf) :
    c.emptyPattern.toList = c.wrap (dataBody c.emptyPattern[1] c.emptyPattern[2] c.emptyPattern[3]
      c.emptyPattern[4] c.emptyPattern[5]) := by
  obtain ⟨-, h0, h6⟩ := h
  rw [Config.wrap, ← h0, ← h6]
  apply List.ext_getElem
  · exact Vector.length_toList
  · intro i hi _
    have hi' : i < 7 := by simpa using hi
    interval_cases i <;> rfl

theorem decodeBody_of_length {c : Config} {body : List Byte} (h : body.length ≠ 5) :
    decodeBody c body = .frameBadLen body := by
  unfold decodeBody
  split
  · exact absurd rfl h
  · rfl

theorem decodeBody_of_sentinel {c : Config} {b1 b2 b3 b4 mask : Byte}
    (h : c.wrap (dataBody b1 b2 b3 b4 mask) = c.emptyPattern.toList) :
    decodeBody c (dataBody b1 b2 b3 b4 mask) = .frameEmpty :=
  if_pos h

theorem decodeBody_of_ne_sentinel {c : Config} {b1 b2 b3 b4 mask : Byte}
    (h : c.wrap (dataBody b1 b2 b3 b4 mask) ≠ c.emptyPattern.toList) :
    decodeBody c (dataBody b1 b2 b3 b4 mask) = .frameData b1 b2 b3 b4 mask :=
  if_neg h

/-! ### Well-formed operands -/

theorem wellFormed_feedByte_iff {c : Config} {b : Byte} :
    (Instr.feedByte b).wellFormed c ↔ b ≠ c.startMarker ∧ b ≠ c.terminator := by
  simp [Instr.wellFormed]

theorem wellFormed_frameBadLen_iff {c : Config} {body : List Byte} :
    (Instr.frameBadLen body).wellFormed c ↔
      frameLenOk (c.wrap body).length ∧ (c.wrap body).length ≠ Config.frameLen :=
  decide_eq_true_iff

theorem wellFormed_frameData_iff {c : Config} {b1 b2 b3 b4 mask : Byte} :
    (Instr.frameData b1 b2 b3 b4 mask).wellFormed c ↔
      c.wrap (dataBody b1 b2 b3 b4 mask) ≠ c.emptyPattern.toList :=
  bne_iff_ne

/-! ### The round trips -/

/-- The frame of five inner bytes has a length that can be completed (R58). -/
theorem frameLenOk_wrap_dataBody (c : Config) (b1 b2 b3 b4 mask : Byte) :
    frameLenOk (c.wrap (dataBody b1 b2 b3 b4 mask)).length := by
  simp [length_wrap, frameLenOk, Config.capacity]

/-- Settles O26, row by row: the two outer ports by their classification, a FRAME row by the class of the body
that its encoding wraps. -/
theorem decodeOfEncode : Obligations.DecodeOfEncode := by
  intro c i hc hi
  cases i with
  | feedStart => exact decode_feed_eq_ok_iff.mpr (decodeFeed_eq_feedStart_iff.mpr rfl)
  | feedTerm => exact decode_feed_eq_ok_iff.mpr (decodeFeed_eq_feedTerm_iff.mpr ⟨hc.1.symm, rfl⟩)
  | feedByte b =>
    exact decode_feed_eq_ok_iff.mpr (decodeFeed_eq_feedByte_iff.mpr ⟨rfl, wellFormed_feedByte_iff.mp hi⟩)
  | encode w => rfl
  | frameBadLen body =>
    obtain ⟨hok, hne⟩ := wellFormed_frameBadLen_iff.mp hi
    rw [encode, decode_wrap hok, decodeBody_of_length fun h5 => hne (by rw [length_wrap, h5])]
  | frameEmpty =>
    rw [encode, emptyPattern_eq_wrap hc, decode_wrap (frameLenOk_wrap_dataBody ..),
      decodeBody_of_sentinel (emptyPattern_eq_wrap hc).symm]
  | frameData b1 b2 b3 b4 mask =>
    rw [encode, decode_wrap (frameLenOk_wrap_dataBody ..),
      decodeBody_of_ne_sentinel (wellFormed_frameData_iff.mp hi)]

/-- The class of a body is well formed, and its encoding is the frame of that body. -/
theorem encode_decodeBody {c : Config} {body : List Byte} (h : frameLenOk (c.wrap body).length) :
    (decodeBody c body).wellFormed c ∧ encode c (decodeBody c body) = .frame (c.wrap body) := by
  by_cases h5 : body.length = 5
  · match body, h5 with
    | [b1, b2, b3, b4, mask], _ =>
      by_cases hs : c.wrap (dataBody b1 b2 b3 b4 mask) = c.emptyPattern.toList
      · rw [decodeBody_of_sentinel hs]
        exact ⟨rfl, congrArg PortInput.frame hs.symm⟩
      · rw [decodeBody_of_ne_sentinel hs]
        exact ⟨wellFormed_frameData_iff.mpr hs, rfl⟩
  · rw [decodeBody_of_length h5]
    refine ⟨wellFormed_frameBadLen_iff.mpr ⟨h, fun h7 => h5 ?_⟩, rfl⟩
    exact Nat.add_right_cancel ((length_wrap c body).symm.trans h7)

/-- The class of a byte is well formed, and its encoding is that byte. -/
theorem encode_decodeFeed (c : Config) (b : Byte) :
    (decodeFeed c b).wellFormed c ∧ encode c (decodeFeed c b) = .feed b := by
  by_cases hs : b = c.startMarker
  · rw [decodeFeed_eq_feedStart_iff.mpr hs]
    exact ⟨rfl, congrArg PortInput.feed hs.symm⟩
  by_cases ht : b = c.terminator
  · rw [decodeFeed_eq_feedTerm_iff.mpr ⟨hs, ht⟩]
    exact ⟨rfl, congrArg PortInput.feed ht.symm⟩
  · rw [decodeFeed_eq_feedByte_iff.mpr ⟨rfl, hs, ht⟩]
    exact ⟨wellFormed_feedByte_iff.mpr ⟨hs, ht⟩, rfl⟩

/-- Settles O27, port by port; at the internal port what decodes is a completed frame, so the frame of its body. -/
theorem encodeOfDecode : Obligations.EncodeOfDecode := by
  intro c p i h
  cases p with
  | feed b =>
    cases decode_feed_eq_ok_iff.mp h
    exact encode_decodeFeed c b
  | enc w =>
    cases h
    exact ⟨rfl, rfl⟩
  | frame bytes =>
    obtain ⟨hframe, rfl⟩ := decodeFrame_eq_ok_iff.mp h
    have hwrap := wrap_of_completedFrame hframe
    rw [← hwrap, tail_dropLast_wrap]
    exact encode_decodeBody (hwrap.symm ▸ hframe.1)

/-- Settles O29: seven closed words, one for each row of the opcode table. -/
theorem writtenOutWordsDecode : Obligations.WrittenOutWordsDecode := by
  unfold Obligations.WrittenOutWordsDecode
  decide

end Sys2Proof
end

