-- ==== Sys2Proof/Proofs/FeedOperations.lean ====
section
/-! The FEED of one byte: the branches of R66 on one decoder, the state a FEED leaves, and the statements about a
single FEED and a single reset. -/

namespace Sys2Proof.Machine

/-! ### The bytes before the cursor -/

/-- The bytes of the frame in progress, which are all of the buffer that can be observed (R29). -/
def Decoder.live (d : Decoder) : List Byte := d.buffer.toList.take d.position.val

theorem Decoder.length_live (d : Decoder) : d.live.length = d.position.val := by
  simpa [Decoder.live] using Nat.le_of_lt_succ d.position.isLt

theorem Decoder.live_start (c : Config) (d : Decoder) : (d.start c).live = [c.startMarker] := by
  simp [Decoder.live, Vector.toList_set, List.take_one, List.head?_eq_getElem?]

/-- Storing a byte and advancing lengthens the frame in progress by that byte (R69). -/
theorem Decoder.live_advance_store (d : Decoder) (b : Byte) (h : d.position.val < Config.capacity) :
    ((d.store b h).advance h).live = d.live ++ [b] :=
  d.frame_store b h

/-! ### The branches of R66 -/

section branches
variable {c : Config} {b : Byte} {d : Decoder}

theorem feedOf_startMarker (c : Config) (d : Decoder) : feedOf c c.startMarker d = (d.start c, .pending) := by
  rw [feedOf, if_pos rfl, Decoder.feedStart]

theorem feedOf_of_rejecting (hs : b ≠ c.startMarker) (ha : ¬ d.Accepting) : feedOf c b d = (d, .error) := by
  rw [feedOf, if_neg hs]
  split
  · exact Decoder.feedTerm_of_rejecting c ha
  · exact Decoder.feedByte_of_rejecting b ha

theorem feedOf_terminator (hs : c.terminator ≠ c.startMarker) (ha : d.Accepting) :
    feedOf c c.terminator d =
      ((d.store c.terminator ha.2).rewind, frameDecode c (d.live ++ [c.terminator])) := by
  rw [feedOf, if_neg hs, if_pos rfl, Decoder.feedTerm_of_accepting c ha, Decoder.frame_store, Decoder.live]

theorem feedOf_plain (hs : b ≠ c.startMarker) (ht : b ≠ c.terminator) (ha : d.Accepting) :
    feedOf c b d = ((d.store b ha.2).advance ha.2, .pending) := by
  rw [feedOf, if_neg hs, if_neg ht, Decoder.feedByte_of_accepting b ha]

/-- Everything a FEED can do to its decoder: start a frame, reject, close the frame in progress, or lengthen it. -/
theorem feedOf_cases (c : Config) (b : Byte) (d : Decoder) :
    (b = c.startMarker ∧ feedOf c b d = (d.start c, .pending)) ∨
      (b ≠ c.startMarker ∧ ¬ d.Accepting ∧ feedOf c b d = (d, .error)) ∨
      (∃ ha : d.Accepting, b ≠ c.startMarker ∧ b = c.terminator ∧
        feedOf c b d = ((d.store b ha.2).rewind, frameDecode c (d.live ++ [b]))) ∨
      ∃ ha : d.Accepting, b ≠ c.startMarker ∧ b ≠ c.terminator ∧
        feedOf c b d = ((d.store b ha.2).advance ha.2, .pending) := by
  by_cases hs : b = c.startMarker
  · exact .inl ⟨hs, hs ▸ feedOf_startMarker c d⟩
  by_cases ha : d.Accepting
  · by_cases ht : b = c.terminator
    · subst ht
      exact .inr (.inr (.inl ⟨ha, hs, rfl, feedOf_terminator hs ha⟩))
    · exact .inr (.inr (.inr ⟨ha, hs, ht, feedOf_plain hs ht ha⟩))
  · exact .inr (.inl ⟨hs, ha, feedOf_of_rejecting hs ha⟩)

theorem not_accepting_of_position_eq_zero (h : d.position.val = 0) : ¬ d.Accepting := fun ha =>
  Nat.ne_of_gt ha.1 h

theorem not_accepting_of_stuck (h : d.Stuck) : ¬ d.Accepting := fun ha =>
  Nat.ne_of_lt ha.2 h

/-- A decoder that accepts nothing awaits a start marker or is stuck (R68, R69). -/
theorem position_of_not_accepting (h : ¬ d.Accepting) : d.position.val = 0 ∨ d.Stuck := by
  have := d.position.isLt
  simp only [Decoder.Accepting, Decoder.Stuck, Config.capacity] at *
  omega

end branches

/-! ### The state a FEED leaves -/

/-- The state after a FEED of `b` to decoder `k`, which was `d`, with `es` left to offer. -/
def State.fed (s : State) (k : Nat) (d : Decoder) (b : Byte) (es : List Event) : State :=
  (State.setDecoder { s.quiet with frameIn := none, inputs := es, current := k } k (feedOf s.cfg b d).1).respond
    (feedOf s.cfg b d).2

section fed
variable (s : State) (k : Nat) (d : Decoder) (b : Byte) (es : List Event)
@[simp] theorem State.fed_cfg : (s.fed k d b es).cfg = s.cfg := rfl
@[simp] theorem State.fed_decoders : (s.fed k d b es).decoders = s.decoders.set k (feedOf s.cfg b d).1 := rfl
@[simp] theorem State.fed_current : (s.fed k d b es).current = k := rfl
@[simp] theorem State.fed_frameIn : (s.fed k d b es).frameIn = none := rfl
@[simp] theorem State.fed_inputs : (s.fed k d b es).inputs = es := rfl
@[simp] theorem State.fed_res : (s.fed k d b es).res = some (feedOf s.cfg b d).2 := rfl
@[simp] theorem State.fed_encFrame : (s.fed k d b es).encFrame = none := rfl
@[simp] theorem State.fed_draws : (s.fed k d b es).draws = s.draws + 1 := rfl
end fed

/-- A byte offered first to a decoder that exists is fed to it. -/
theorem step_of_feed_some {s : State} {k : Nat} {b : Byte} {d : Decoder} {ts : List Txn} {rest : List Event}
    (hf : s.frameIn = none) (hi : s.inputs = .offer (.feed k b :: ts) :: rest)
    (hn : (feedTargets (.feed k b :: ts)).Nodup) (hd : s.decoders[k]? = some d) :
    step s = .next (s.fed k d b (pushRest ts rest)) := by
  rw [step_of_feed hf hi hn, State.onCurrent_of_some hd, State.fed, ← hf]
  rfl

/-- A single byte offered to the current decoder is fed to it. -/
theorem step_withInput_feed {s : State} {d : Decoder} (b : Byte) (h : s.decoders[s.current]? = some d) :
    step (s.withInput (.feed b)) = .next (s.fed s.current d b s.inputs) := by
  have hn : (feedTargets [.feed s.current b]).Nodup := List.nodup_singleton s.current
  exact step_of_feed_some (s := s.withInput (.feed b)) rfl rfl hn h

/-! ### The reset of one decoder -/

theorem step_of_rst {s : State} {k : Nat} {rest : List Event} (hf : s.frameIn = none)
    (hi : s.inputs = .rst k :: rest) : step s = State.resetDecoder { s.quiet with inputs := rest } k := by
  simp only [step, State.fetch_of_rst hf hi]

theorem State.resetDecoder_of_some {s : State} {k : Nat} {d : Decoder} (h : s.decoders[k]? = some d) :
    s.resetDecoder k = .next (s.setDecoder k Decoder.fresh) := by
  simp only [State.resetDecoder, h]

theorem State.resetDecoder_of_none {s : State} {k : Nat} (h : s.decoders[k]? = none) :
    s.resetDecoder k = .fault .noDecoder := by
  simp only [State.resetDecoder, h]

/-- Settles O3: the step replaces decoder `k` by a fresh one and writes nothing else. -/
theorem rstMakesOneDecoderFresh : Obligations.RstMakesOneDecoderFresh := by
  intro s k rest hf hi hk
  have hstep := (step_of_rst hf hi).trans
    (State.resetDecoder_of_some (s := { s.quiet with inputs := rest }) (List.getElem?_eq_getElem hk))
  exact ⟨_, hstep, ⟨_, List.getElem?_set_self hk, Decoder.fresh_position⟩, List.length_set,
    fun j hj => List.getElem?_set_ne hj.symm, rfl, rfl, rfl, rfl⟩

/-- Settles O4: a fresh decoder accepts nothing but a start marker. -/
theorem firstFeedAfterReset : Obligations.FirstFeedAfterReset := by
  intro n k b hk
  have hd : (List.replicate n Decoder.fresh)[k]? = some Decoder.fresh := List.getElem?_replicate_of_lt hk
  have hk' : k < (List.replicate n Decoder.fresh).length := by rwa [List.length_replicate]
  refine ⟨_, _, step_of_feed_some rfl rfl (List.nodup_singleton k) hd, List.getElem?_set_self hk', ?_, ?_⟩
  · rintro rfl
    simp [feedOf_startMarker]
  · intro hb
    have ha : ¬ Decoder.fresh.Accepting := not_accepting_of_position_eq_zero rfl
    simp [feedOf_of_rejecting hb ha]

/-! ### The three FEED operations as instructions -/

/-- Each FEED operation is an update of the current decoder. -/
theorem exec_feed_eq_onCurrent {i : Instr} (s : State)
    (hi : i = .feedStart ∨ i = .feedTerm ∨ ∃ b, i = .feedByte b) : ∃ f, exec i s = s.onCurrent f := by
  obtain rfl | rfl | ⟨b, rfl⟩ := hi
  · exact ⟨Decoder.feedStart s.cfg, rfl⟩
  · exact ⟨Decoder.feedTerm s.cfg, rfl⟩
  · exact ⟨Decoder.feedByte b, rfl⟩

/-- Settles O8: an update of the current decoder writes that decoder and the decode port's response. -/
theorem feedKeepsEverythingElse : Obligations.FeedKeepsEverythingElse := by
  intro s t i hi h
  obtain ⟨f, hf⟩ := exec_feed_eq_onCurrent s hi
  obtain ⟨d, -, rfl⟩ := State.onCurrent_next (hf.symm.trans h)
  exact ⟨List.length_set, fun k hk => List.getElem?_set_ne hk.symm, rfl, rfl, rfl, rfl, rfl⟩

/-- Settles O9: neither an update of the current decoder nor a reset finds a decoder to replace. -/
theorem missingDecoderFaults : Obligations.MissingDecoderFaults := by
  intro s
  refine ⟨fun hd i hi => ?_, fun k rest hf hi hk => ?_⟩
  · obtain ⟨f, hf⟩ := exec_feed_eq_onCurrent s hi
    rw [hf, State.onCurrent_of_none hd]
  · exact (step_of_rst hf hi).trans (State.resetDecoder_of_none (List.getElem?_eq_none hk))

/-! ### The kinds of response -/

/-- FRAME_DECODE answers one of three kinds, never `Pending` (R76). -/
theorem frameDecode_cases (c : Config) (frame : List Byte) :
    frameDecode c frame = .error ∨ frameDecode c frame = .empty ∨ ∃ w, frameDecode c frame = .data w := by
  by_cases hl : frame.length = Config.frameLen
  · by_cases he : frame = c.emptyPattern.toList
    · exact .inr (.inl (frameDecode_eq_empty_iff.mpr he))
    · exact .inr (.inr ⟨_, frameDecode_of_data hl he⟩)
  · exact .inl (frameDecode_of_length hl)

/-- A frame of FRAME_LEN bytes, and no other, is answered by `Empty` or `Data` (R77). -/
theorem frameDecode_empty_or_data_iff {c : Config} {frame : List Byte} :
    (frameDecode c frame = .empty ∨ ∃ w, frameDecode c frame = .data w) ↔ frame.length = Config.frameLen := by
  rw [← not_iff_not, ← ne_eq (frame.length), ← frameDecode_eq_error_iff (c := c)]
  obtain h | h | ⟨w, h⟩ := frameDecode_cases c frame <;> simp [h]

/-- FEED_BYTE answers `Pending` or `Error` (R69). -/
theorem Decoder.feedByte_response (b : Byte) (d : Decoder) :
    (d.feedByte b).2 = .pending ∨ (d.feedByte b).2 = .error := by
  by_cases ha : d.Accepting
  · exact .inl (by rw [Decoder.feedByte_of_accepting b ha])
  · exact .inr (by rw [Decoder.feedByte_of_rejecting b ha])

/-- FEED_TERM never answers `Pending` (R68). -/
theorem Decoder.feedTerm_response (c : Config) (d : Decoder) :
    (d.feedTerm c).2 = .error ∨ (d.feedTerm c).2 = .empty ∨ ∃ w, (d.feedTerm c).2 = .data w := by
  by_cases ha : d.Accepting
  · rw [Decoder.feedTerm_of_accepting c ha]
    exact frameDecode_cases c _
  · exact .inl (by rw [Decoder.feedTerm_of_rejecting c ha])

/-- Settles O10, operation by operation. -/
theorem responseKindsByOperation : Obligations.ResponseKindsByOperation := by
  intro s t
  refine ⟨fun h => ?_, fun b h => ?_, fun h => ?_⟩
  · obtain ⟨d, -, rfl⟩ := State.onCurrent_next h
    rfl
  · obtain ⟨d, -, rfl⟩ := State.onCurrent_next h
    simpa using d.feedByte_response b
  · obtain ⟨d, -, rfl⟩ := State.onCurrent_next h
    simpa using d.feedTerm_response s.cfg

/-! ### The lanes of the decode port -/

/-- The two lanes show the response of the step just done (D2). -/
theorem State.lanes_of_res {s : State} {m : Decoded} (h : s.res = some m) :
    s.resTag = some m.resTag ∧ s.resWord = some (m.resWord s.draws) := by
  simp only [State.resTag, State.resWord, h, Option.map_some, and_self]

/-- Settles O43: response by response. -/
theorem portLanesOfResponse : Obligations.PortLanesOfResponse := by
  intro s
  refine ⟨fun w h => State.lanes_of_res h, fun h => State.lanes_of_res h, fun h => ?_, fun h => ?_, fun h => ?_⟩
  · obtain ⟨htag, hword⟩ := State.lanes_of_res h
    exact ⟨htag, by rw [hword, Option.isSome_some]⟩
  · obtain ⟨htag, hword⟩ := State.lanes_of_res h
    exact ⟨htag, by rw [hword, Option.isSome_some]⟩
  · simp only [State.resTag, State.resWord, h, Option.map_none, and_self]

/-! ### Where a frame is answered -/

/-- The frame that a terminator closes has one byte more than the cursor says (R58). -/
theorem Decoder.length_live_append_singleton (d : Decoder) (b : Byte) :
    (d.live ++ [b]).length = d.position.val + 1 := by
  rw [List.length_append, Decoder.length_live, List.length_singleton]

/-- Settles O11: of the four things a FEED can do only closing a frame is answered by FRAME_DECODE, and that frame
has one byte more than the cursor says. -/
theorem dataOrEmptyExactlyAtSeventhByte : Obligations.DataOrEmptyExactlyAtSeventhByte := by
  intro s d b hd hne
  refine ⟨_, step_withInput_feed b hd, ?_⟩
  simp only [State.fed_res, Option.some.injEq]
  rcases feedOf_cases s.cfg b d with ⟨rfl, h⟩ | ⟨-, hrej, h⟩ | ⟨_, -, rfl, h⟩ | ⟨_, -, ht, h⟩
  · simp [h, hne]
  · have hpos : d.position.val + 1 ≠ Config.frameLen := by
      rcases position_of_not_accepting hrej with h0 | h10
      · rw [h0]
        decide
      · rw [h10]
        decide
    simp [h, hpos]
  · rw [h, frameDecode_empty_or_data_iff, Decoder.length_live_append_singleton]
    exact (and_iff_right rfl).symm
  · simp [h, ht]

/-! ### The causes of Error -/

section causes
variable {c : Config} {b : Byte} {d : Decoder}

theorem errorCause_eq_noSync_iff : errorCause c b d = some .noSync ↔ d.position.val = 0 ∧ b ≠ c.startMarker := by
  simp only [errorCause]
  split_ifs <;> simp_all

theorem errorCause_eq_overflow_iff : errorCause c b d = some .overflow ↔ d.Stuck ∧ b ≠ c.startMarker := by
  simp only [errorCause, Decoder.Stuck]
  split_ifs <;> simp_all

theorem errorCause_eq_length_iff (hne : c.startMarker ≠ c.terminator) :
    errorCause c b d = some .length ↔
      b = c.terminator ∧ 1 ≤ d.position.val ∧ d.position.val ≤ 9 ∧ d.position.val ≠ 6 := by
  have hlt : d.position.val < 11 := d.position.isLt
  simp only [errorCause, Config.capacity]
  split_ifs with hs h0 h10 ht
  · simp [hs, hne]
  · simp [h0]
  · simp [h10]
  · exact iff_of_true rfl ⟨ht.1, by omega, by omega, ht.2⟩
  · refine iff_of_false (by simp) ?_
    rintro ⟨hb, -, -, h6⟩
    exact ht ⟨hb, h6⟩

/-- A FEED answers `Error` exactly where the table of causes names one (R92). -/
theorem feedOf_eq_error_iff : (feedOf c b d).2 = .error ↔ (errorCause c b d).isSome := by
  rcases feedOf_cases c b d with ⟨hs, h⟩ | ⟨hs, hrej, h⟩ | ⟨ha, hs, ht, h⟩ | ⟨ha, hs, ht, h⟩
  · rw [h]
    simp [errorCause, hs]
  · rcases position_of_not_accepting hrej with h0 | h10
    · simp [h, errorCause_eq_noSync_iff.mpr ⟨h0, hs⟩]
    · simp [h, errorCause_eq_overflow_iff.mpr ⟨h10, hs⟩]
  · have h0 := Nat.ne_of_gt ha.1
    have h10 := Nat.ne_of_lt ha.2
    rw [h, frameDecode_eq_error_iff, Decoder.length_live_append_singleton]
    simp only [errorCause, if_neg hs, if_neg h0, if_neg h10, and_iff_right ht]
    by_cases h6 : d.position.val = 6 <;> simp [h6, Config.frameLen]
  · have h0 := Nat.ne_of_gt ha.1
    have h10 := Nat.ne_of_lt ha.2
    simp [h, errorCause, h0, h10, ht]

end causes

/-- Settles O42: the first two causes are the two ways to be rejected, the third is a closed frame of wrong length. -/
theorem everyErrorHasItsCause : Obligations.EveryErrorHasItsCause := by
  intro s d b hd hne
  refine ⟨_, step_withInput_feed b hd, ?_, errorCause_eq_noSync_iff, errorCause_eq_overflow_iff,
    errorCause_eq_length_iff hne, fun hcause => ?_, fun hcause => ?_⟩
  · rw [State.fed_res, Option.some.injEq, feedOf_eq_error_iff]
  · rw [errorCause_eq_noSync_iff, errorCause_eq_overflow_iff] at hcause
    obtain ⟨hs, hrej⟩ : b ≠ s.cfg.startMarker ∧ ¬ d.Accepting := by
      rcases hcause with ⟨h0, hs⟩ | ⟨h10, hs⟩
      · exact ⟨hs, not_accepting_of_position_eq_zero h0⟩
      · exact ⟨hs, not_accepting_of_stuck h10⟩
    rw [State.fed_decoders, feedOf_of_rejecting hs hrej, State.decoders_set_current_self hd]
  · obtain ⟨rfl, hmin, hmax, -⟩ := (errorCause_eq_length_iff hne).mp hcause
    have ha : d.Accepting := ⟨hmin, Nat.lt_succ_of_le hmax⟩
    refine ⟨(d.store s.cfg.terminator ha.2).rewind, ha.2, ?_, Decoder.rewind_position _, ?_⟩
    · rw [State.fed_decoders, feedOf_terminator hne.symm ha]
    · simp

end Sys2Proof.Machine
end

