-- ==== Sys2Proof/Proofs/Invariants.lean ====
section
/-! What every step keeps (10_state.md section 1): the frame invariant, the facts fixed at build time, and every
decoder that the event is not for. -/

namespace Sys2Proof.Machine

/-! ### The frame invariant of one decoder -/

section decoder
variable {c : Config} {d : Decoder}

theorem Decoder.inv_of_position_eq_zero (h : d.position.val = 0) : d.Inv c := fun hpos =>
  absurd h (Nat.ne_of_gt hpos)

/-- A frame just started has no slot but slot 0 (R67). -/
theorem Decoder.inv_start (c : Config) (d : Decoder) : (d.start c).Inv c := by
  refine fun _ => ⟨Decoder.start_buffer_getElem c d 0, fun i hmin hlt => ?_⟩
  exact absurd hlt (Nat.not_lt.mpr hmin)

/-- Lengthening a frame writes the slot at its cursor and no other (R69). -/
theorem Decoder.advance_store_buffer_getElem (d : Decoder) (b : Byte) (h : d.position.val < Config.capacity)
    (i : Fin Config.capacity) :
    ((d.store b h).advance h).buffer[i.val] = if i.val = d.position.val then b else d.buffer[i.val] :=
  Decoder.store_buffer_getElem d b h i

/-- Lengthening a frame by a byte that is neither marker keeps the invariant (R69). -/
theorem Decoder.inv_advance_store {b : Byte} (ha : d.Accepting) (hs : b ≠ c.startMarker) (ht : b ≠ c.terminator)
    (hd : d.Inv c) : ((d.store b ha.2).advance ha.2).Inv c := by
  obtain ⟨hzero, hlater⟩ := hd ha.1
  refine fun _ => ⟨?_, fun i hmin hlt => ?_⟩
  · exact (Decoder.advance_store_buffer_getElem d b ha.2 0).trans ((if_neg (Nat.ne_of_lt ha.1)).trans hzero)
  · rw [Decoder.advance_store_buffer_getElem]
    split
    · exact ⟨hs, ht⟩
    next hne => exact hlater i hmin (Nat.lt_of_le_of_ne (Nat.le_of_lt_succ hlt) hne)

/-- A FEED keeps the invariant of its decoder: of the four things it can do only lengthening a frame writes a later
slot of a frame that stays in progress. -/
theorem feedOf_keeps_inv (b : Byte) (hd : d.Inv c) : (feedOf c b d).1.Inv c := by
  rcases feedOf_cases c b d with ⟨-, h⟩ | ⟨-, -, h⟩ | ⟨ha, -, -, h⟩ | ⟨ha, hs, ht, h⟩
  · exact h ▸ Decoder.inv_start c d
  · exact h ▸ hd
  · exact h ▸ Decoder.inv_of_position_eq_zero rfl
  · exact h ▸ Decoder.inv_advance_store ha hs ht hd

end decoder

/-! ### The frame invariant of the machine -/

/-- Settles O2: every decoder after reset is fresh, with no frame in progress. -/
theorem resetMeetsFrameInvariant : Obligations.ResetMeetsFrameInvariant := by
  have h (n : Nat) : (State.resetWith n).Inv := fun d hd =>
    Decoder.inv_of_position_eq_zero (congrArg Fin.val (State.position_of_mem_resetWith hd))
  exact ⟨h, h Config.nStreams⟩

/-- Replacing one decoder by another that meets the invariant keeps that of the machine (R31). -/
theorem State.Inv.set {s : State} {d : Decoder} (hs : s.Inv) (hd : d.Inv s.cfg) (k : Nat) :
    ∀ e ∈ s.decoders.set k d, e.Inv s.cfg := fun e he => by
  rcases List.mem_or_eq_of_mem_set he with hmem | rfl
  · exact hs e hmem
  · exact hd

/-- Settles O38: a step replaces at most one decoder, by a fresh one or by what a FEED makes of it. -/
theorem stepKeepsFrameInvariant : Obligations.StepKeepsFrameInvariant := by
  intro s t hs h
  obtain ⟨hcfg, -, hdec⟩ := step_next h
  rw [State.Inv, hcfg]
  rcases hdec with hsame | ⟨-, ⟨k, rest, -, hset⟩ | ⟨k, b, d, ts, rest, -, hd, -, hset⟩⟩
  · exact hsame ▸ hs
  · exact hset ▸ hs.set (Decoder.inv_of_position_eq_zero rfl) k
  · exact hset ▸ hs.set (feedOf_keeps_inv b (hs d (List.mem_of_getElem? hd))) k

/-! ### What no step changes -/

/-- Settles O39: a step replaces decoders one for one. -/
theorem stepKeepsBuildTimeFacts : Obligations.StepKeepsBuildTimeFacts := by
  intro s t h
  obtain ⟨hcfg, hframe, hdec⟩ := step_next h
  refine ⟨hcfg, ?_, hframe⟩
  rcases hdec with hsame | ⟨-, ⟨k, rest, -, hset⟩ | ⟨k, b, d, ts, rest, -, -, -, hset⟩⟩
  · rw [hsame]
  · rw [hset, List.length_set]
  · rw [hset, List.length_set]

/-- An entry that a replacement changes is the one replaced. -/
theorem eq_of_getElem?_set_ne {ds : List Decoder} {j k : Nat} {e : Decoder} (h : (ds.set j e)[k]? ≠ ds[k]?) :
    j = k :=
  not_imp_comm.mp (fun hne => List.getElem?_set_ne hne) h

/-- Settles O40: the decoder that a step replaces is the one its event is for. -/
theorem onlyItsOwnFeedChangesDecoder : Obligations.OnlyItsOwnFeedChangesDecoder := by
  intro s t k h hne
  obtain ⟨-, -, hdec⟩ := step_next h
  rcases hdec with hsame | ⟨hf, ⟨j, rest, hi, hset⟩ | ⟨j, b, d, ts, rest, hi, -, -, hset⟩⟩
  · exact absurd (by rw [hsame]) hne
  · obtain rfl := eq_of_getElem?_set_ne (hset ▸ hne)
    exact ⟨hf, rest, .inl hi⟩
  · obtain rfl := eq_of_getElem?_set_ne (hset ▸ hne)
    exact ⟨hf, rest, .inr ⟨b, ts, hi⟩⟩

end Sys2Proof.Machine
end

