-- ==== Sys2Proof/Proofs/Noninterference.lean ====
section
/-! What a step cannot observe: the stale bytes of a buffer (R29) and the responses and the draw counter of
earlier steps (R25). Both are relations between states that every part of a step respects. -/

namespace Sys2Proof.Machine

/-! ### Relations that a step respects -/

/-- `R` is respected by every part of a step: by taking an offer or a frame, by every instruction and by a reset. -/
structure Respected (R : State → State → Prop) : Prop where
  cfg : ∀ {s t}, R s t → s.cfg = t.cfg
  withInputs : ∀ {s t} (es : List Event), R s t → R { s with inputs := es } { t with inputs := es }
  withCurrent : ∀ {s t} (k : Nat), R s t → R { s with current := k } { t with current := k }
  withFrameIn : ∀ {s t} (bytes : Option (List Byte)), R s t →
    R { s with frameIn := bytes } { t with frameIn := bytes }
  exec : ∀ {s t} (i : Instr), R s t → BothAnswer R (exec i s) (exec i t)
  resetDecoder : ∀ {s t} (k : Nat), R s t → BothAnswer R (s.resetDecoder k) (t.resetDecoder k)

section respected
variable {R : State → State → Prop} {s t : State}

/-- The same input found in related states leads to related outcomes. -/
theorem Respected.step_of_input (hR : Respected R) {s' t' : State} {p : PortInput} (h : R s' t')
    (hs : s.fetch = .input p s') (ht : t.fetch = .input p t') : BothAnswer R (step s) (step t) := by
  simp only [step, hs, ht, ← hR.cfg h]
  cases decode s'.cfg p with
  | ok i => exact hR.exec i h
  | error why => exact rfl

/-- A transaction presented in related states leads to related outcomes. -/
theorem Respected.step_of_present (hR : Respected R) {s' t' : State} (x : Txn) (h : R s' t')
    (hs : s.fetch = s'.present x) (ht : t.fetch = t'.present x) : BothAnswer R (step s) (step t) := by
  cases x with
  | feed k b => exact hR.step_of_input (hR.withCurrent k h) hs ht
  | enc w => exact hR.step_of_input h hs ht

/-- States that are related once their outputs are cleared, and that have the same to perform, have related steps. -/
theorem Respected.bothAnswer_step (hR : Respected R) (h : R s.quiet t.quiet) (hin : t.inputs = s.inputs)
    (hframe : t.frameIn = s.frameIn) : BothAnswer R (step s) (step t) := by
  rcases State.fetch_cases s with ⟨bytes, hf, hs⟩ | ⟨hf, ⟨hi, hs⟩ | ⟨k, rest, hi, hs⟩ | ⟨rest, hi, hs⟩ |
    ⟨x, ts, rest, hi, hn, hs⟩ | ⟨x, ts, rest, hi, hn, hs⟩⟩
  · exact hR.step_of_input (hR.withFrameIn none h) hs (State.fetch_of_frame (hframe.trans hf))
  · simp only [step, hs, State.fetch_of_nil (hframe.trans hf) (hin.trans hi)]
    exact h
  · simp only [step, hs, State.fetch_of_rst (hframe.trans hf) (hin.trans hi)]
    exact hR.resetDecoder k (hR.withInputs rest h)
  · simp only [step, hs, State.fetch_of_poll (hframe.trans hf) (hin.trans hi)]
    exact hR.withInputs rest h
  · exact hR.step_of_present x (hR.withInputs _ h) hs (State.fetch_of_offer (hframe.trans hf) (hin.trans hi) hn)
  · simp only [step, hs, State.fetch_of_clash (hframe.trans hf) (hin.trans hi) hn]
    exact rfl

end respected

/-! ### Stale bytes: one decoder -/

/-- Two decoders with the same cursor differ in stale bytes only exactly if the same bytes are live. -/
theorem Decoder.sameLive_iff {d e : Decoder} : d.SameLive e ↔ d.position = e.position ∧ d.live = e.live := by
  refine and_congr_right fun hp => ⟨fun h => ?_, fun h i hi => ?_⟩
  · refine List.ext_getElem (by simp only [Decoder.length_live, hp]) fun i hd he => ?_
    have hlt : i < d.position.val := by rwa [Decoder.length_live] at hd
    simpa [Decoder.live] using h ⟨i, Nat.lt_of_lt_of_le hlt (Nat.le_of_lt_succ d.position.isLt)⟩ hlt
  · have hget := congrArg (fun bs : List Byte => bs[i.val]?) h
    simpa [Decoder.live, hi, hp ▸ hi] using hget

/-- An update of a decoder that observes no stale byte: its answer does not depend on one, and no byte that was
stale becomes live. -/
def RespectsLive (f : Decoder → Decoder × Decoded) : Prop :=
  ∀ d e, d.SameLive e → (f d).1.SameLive (f e).1 ∧ (f d).2 = (f e).2

theorem Decoder.SameLive.accepting_iff {d e : Decoder} (h : d.SameLive e) : d.Accepting ↔ e.Accepting := by
  rw [Decoder.Accepting, h.1]

theorem respectsLive_feedStart (c : Config) : RespectsLive (Decoder.feedStart c) := fun d e _ =>
  ⟨Decoder.sameLive_start c d e, rfl⟩

/-- The frame that FEED_TERM checks is live but for the terminator, and it leaves nothing live (R68). -/
theorem respectsLive_feedTerm (c : Config) : RespectsLive (Decoder.feedTerm c) := by
  intro d e h
  by_cases ha : d.Accepting
  · have hlive : d.live = e.live := (Decoder.sameLive_iff.mp h).2
    rw [Decoder.feedTerm_of_accepting c ha, Decoder.feedTerm_of_accepting c (h.accepting_iff.mp ha),
      Decoder.frame_store, Decoder.frame_store]
    exact ⟨⟨rfl, fun i hi => absurd hi (Nat.not_lt_zero i.val)⟩,
      congrArg (fun bs => frameDecode c (bs ++ [c.terminator])) hlive⟩
  · rw [Decoder.feedTerm_of_rejecting c ha, Decoder.feedTerm_of_rejecting c (mt h.accepting_iff.mpr ha)]
    exact ⟨h, rfl⟩

/-- The byte that FEED_BYTE makes live is its own operand (R69). -/
theorem respectsLive_feedByte (b : Byte) : RespectsLive (Decoder.feedByte b) := by
  intro d e h
  by_cases ha : d.Accepting
  · obtain ⟨hpos, hlive⟩ := Decoder.sameLive_iff.mp h
    rw [Decoder.feedByte_of_accepting b ha, Decoder.feedByte_of_accepting b (h.accepting_iff.mp ha)]
    refine ⟨Decoder.sameLive_iff.mpr ⟨Fin.ext ?_, ?_⟩, rfl⟩
    · exact congrArg (fun p => p.val + 1) hpos
    · rw [Decoder.live_advance_store, Decoder.live_advance_store, hlive]
  · rw [Decoder.feedByte_of_rejecting b ha, Decoder.feedByte_of_rejecting b (mt h.accepting_iff.mpr ha)]
    exact ⟨h, rfl⟩

/-! ### Stale bytes: the machine -/

/-- Related lists have related entries, or neither has one. -/
theorem forall₂_getElem?_cases {α β : Type} {r : α → β → Prop} {xs : List α} {ys : List β}
    (h : List.Forall₂ r xs ys) (k : Nat) :
    (xs[k]? = none ∧ ys[k]? = none) ∨ ∃ x y, xs[k]? = some x ∧ ys[k]? = some y ∧ r x y := by
  induction h generalizing k with
  | nil => exact .inl ⟨rfl, rfl⟩
  | @cons x y xs ys hxy _ ih =>
    cases k with
    | zero => exact .inr ⟨x, y, rfl, rfl, hxy⟩
    | succ k => exact ih k

theorem forall₂_set {α β : Type} {r : α → β → Prop} {xs : List α} {ys : List β} {x : α} {y : β}
    (h : List.Forall₂ r xs ys) (hxy : r x y) (k : Nat) : List.Forall₂ r (xs.set k x) (ys.set k y) := by
  induction h generalizing k with
  | nil => exact .nil
  | cons h0 htail ih =>
    cases k with
    | zero => exact .cons hxy htail
    | succ k => exact .cons h0 (ih k)

/-- Two states that differ in stale bytes only are one state with two lists of decoders. -/
theorem State.sameLive_iff {s t : State} :
    s.SameLive t ↔ ∃ ds, List.Forall₂ Decoder.SameLive s.decoders ds ∧ t = { s with decoders := ds } := by
  constructor
  · rintro ⟨hdec, ht⟩
    exact ⟨t.decoders, hdec, ht.symm⟩
  · rintro ⟨ds, hdec, rfl⟩
    exact ⟨hdec, rfl⟩

/-- An update of the current decoder that respects stale bytes does so in the machine. -/
theorem onCurrent_sameLive {f : Decoder → Decoder × Decoded} (hf : RespectsLive f) {s t : State}
    (h : s.SameLive t) : BothAnswer State.SameLive (s.onCurrent f) (t.onCurrent f) := by
  obtain ⟨ds, hdec, rfl⟩ := State.sameLive_iff.mp h
  rcases forall₂_getElem?_cases hdec s.current with ⟨hs, ht⟩ | ⟨d, e, hs, ht, hde⟩
  · rw [State.onCurrent_of_none hs, State.onCurrent_of_none ht]
    exact rfl
  · obtain ⟨hnew, hres⟩ := hf d e hde
    rw [State.onCurrent_of_some hs, State.onCurrent_of_some ht, hres]
    exact ⟨forall₂_set hdec hnew s.current, rfl⟩

/-! ### The three forms of an instruction -/

/-- Every instruction, in every state, is an update of the current decoder that respects stale bytes, an answer on the
encode port, or FRAME_DECODE of a frame that the constants and the operands alone determine. -/
theorem exec_form (i : Instr) :
    (∃ f : Config → Decoder → Decoder × Decoded, (∀ c, RespectsLive (f c)) ∧
        ∀ s, exec i s = s.onCurrent (f s.cfg)) ∨
      (∃ w, ∀ s, exec i s = .next (s.emit (encodeWord s.cfg w))) ∨
      ∃ frame : Config → List Byte, ∀ s, exec i s = .next (s.respond (frameDecode s.cfg (frame s.cfg))) := by
  cases i with
  | feedStart => exact .inl ⟨Decoder.feedStart, respectsLive_feedStart, fun _ => rfl⟩
  | feedTerm => exact .inl ⟨Decoder.feedTerm, respectsLive_feedTerm, fun _ => rfl⟩
  | feedByte b => exact .inl ⟨fun _ => Decoder.feedByte b, fun _ => respectsLive_feedByte b, fun _ => rfl⟩
  | encode w => exact .inr (.inl ⟨w, fun _ => rfl⟩)
  | frameBadLen body => exact .inr (.inr ⟨fun c => c.wrap body, fun _ => rfl⟩)
  | frameEmpty => exact .inr (.inr ⟨fun c => c.emptyPattern.toList, fun _ => rfl⟩)
  | frameData b1 b2 b3 b4 mask => exact .inr (.inr ⟨fun c => c.wrap (dataBody b1 b2 b3 b4 mask), fun _ => rfl⟩)

theorem exec_sameLive {s t : State} (i : Instr) (h : s.SameLive t) :
    BothAnswer State.SameLive (exec i s) (exec i t) := by
  obtain ⟨ds, hdec, rfl⟩ := State.sameLive_iff.mp h
  rcases exec_form i with ⟨f, hlive, hf⟩ | ⟨w, hw⟩ | ⟨frame, hframe⟩
  · rw [hf, hf]
    exact onCurrent_sameLive (hlive s.cfg) h
  · rw [hw, hw]
    exact ⟨hdec, rfl⟩
  · rw [hframe, hframe]
    exact ⟨hdec, rfl⟩

/-- A reset finds its decoder in both states or in neither, and the fresh decoder is the same (R102). -/
theorem resetDecoder_sameLive {s t : State} (k : Nat) (h : s.SameLive t) :
    BothAnswer State.SameLive (s.resetDecoder k) (t.resetDecoder k) := by
  obtain ⟨ds, hdec, rfl⟩ := State.sameLive_iff.mp h
  rcases forall₂_getElem?_cases hdec k with ⟨hs, ht⟩ | ⟨d, e, hs, ht, -⟩
  · rw [State.resetDecoder_of_none hs, State.resetDecoder_of_none ht]
    exact rfl
  · rw [State.resetDecoder_of_some hs, State.resetDecoder_of_some ht]
    exact ⟨forall₂_set hdec (Decoder.SameLive.refl Decoder.fresh) k, rfl⟩

/-- An update that reads and writes no decoder keeps two states apart in stale bytes only. -/
theorem State.SameLive.update {s t : State} (h : s.SameLive t) (g : State → State)
    (hdec : ∀ u, (g u).decoders = u.decoders)
    (hcomm : ∀ u ds, g { u with decoders := ds } = { g u with decoders := ds }) : (g s).SameLive (g t) := by
  obtain ⟨ds, hds, rfl⟩ := State.sameLive_iff.mp h
  refine State.sameLive_iff.mpr ⟨ds, ?_, hcomm s ds⟩
  rwa [hdec]

theorem respected_sameLive : Respected State.SameLive where
  cfg h := by
    obtain ⟨ds, -, rfl⟩ := State.sameLive_iff.mp h
    rfl
  withInputs es h := h.update (fun u => { u with inputs := es }) (fun _ => rfl) fun _ _ => rfl
  withCurrent k h := h.update (fun u => { u with current := k }) (fun _ => rfl) fun _ _ => rfl
  withFrameIn bytes h := h.update (fun u => { u with frameIn := bytes }) (fun _ => rfl) fun _ _ => rfl
  exec i h := exec_sameLive i h
  resetDecoder k h := resetDecoder_sameLive k h

/-- Settles O41: states that differ in stale bytes only have the same to perform, and every part of a step respects
the relation. -/
theorem staleBytesAreNotObservable : Obligations.StaleBytesAreNotObservable := by
  intro s t h
  have hquiet : s.quiet.SameLive t.quiet := h.update State.quiet (fun _ => rfl) fun _ _ => rfl
  obtain ⟨ds, -, rfl⟩ := State.sameLive_iff.mp h
  exact respected_sameLive.bothAnswer_step hquiet rfl rfl

/-! ### Earlier responses -/

/-- Two states that differ at most in how many decoded messages have been answered (R54, log entry 5). -/
def State.SameButDraws (s t : State) : Prop := { s with draws := t.draws } = t

theorem State.sameButDraws_iff {s t : State} : s.SameButDraws t ↔ ∃ n, s = { t with draws := n } := by
  constructor
  · intro h
    exact ⟨s.draws, by rw [← h]⟩
  · rintro ⟨n, rfl⟩
    rfl

/-- An update that neither reads nor writes the draw counter. -/
theorem State.SameButDraws.update {s t : State} (h : s.SameButDraws t) (g : State → State)
    (hcomm : ∀ u n, g { u with draws := n } = { g u with draws := n }) : (g s).SameButDraws (g t) := by
  obtain ⟨n, rfl⟩ := State.sameButDraws_iff.mp h
  exact State.sameButDraws_iff.mpr ⟨n, hcomm t n⟩

/-- No instruction reads the draw counter. -/
theorem exec_sameButDraws {s t : State} (i : Instr) (h : s.SameButDraws t) :
    BothAnswer State.SameButDraws (exec i s) (exec i t) := by
  obtain ⟨n, rfl⟩ := State.sameButDraws_iff.mp h
  rcases exec_form i with ⟨f, -, hf⟩ | ⟨w, hw⟩ | ⟨frame, hframe⟩
  · rw [hf, hf]
    cases hd : t.decoders[t.current]? with
    | none =>
      rw [State.onCurrent_of_none hd, State.onCurrent_of_none (s := { t with draws := n }) hd]
      exact rfl
    | some d =>
      rw [State.onCurrent_of_some hd, State.onCurrent_of_some (s := { t with draws := n }) hd]
      exact rfl
  · rw [hw, hw]
    exact rfl
  · rw [hframe, hframe]
    exact rfl

theorem resetDecoder_sameButDraws {s t : State} (k : Nat) (h : s.SameButDraws t) :
    BothAnswer State.SameButDraws (s.resetDecoder k) (t.resetDecoder k) := by
  obtain ⟨n, rfl⟩ := State.sameButDraws_iff.mp h
  cases hd : t.decoders[k]? with
  | none =>
    rw [State.resetDecoder_of_none hd, State.resetDecoder_of_none (s := { t with draws := n }) hd]
    exact rfl
  | some d =>
    rw [State.resetDecoder_of_some hd, State.resetDecoder_of_some (s := { t with draws := n }) hd]
    exact rfl

theorem respected_sameButDraws : Respected State.SameButDraws where
  cfg h := by
    obtain ⟨n, rfl⟩ := State.sameButDraws_iff.mp h
    rfl
  withInputs es h := h.update (fun u => { u with inputs := es }) fun _ _ => rfl
  withCurrent k h := h.update (fun u => { u with current := k }) fun _ _ => rfl
  withFrameIn bytes h := h.update (fun u => { u with frameIn := bytes }) fun _ _ => rfl
  exec i h := exec_sameButDraws i h
  resetDecoder k h := resetDecoder_sameButDraws k h

/-- Settles O37: clearing the outputs removes what differs but for the draw counter, which no part of a step reads. -/
theorem earlierResponsesAreNotRead : Obligations.EarlierResponsesAreNotRead := fun _ _ _ _ =>
  respected_sameButDraws.bothAnswer_step rfl rfl rfl

end Sys2Proof.Machine
end

