-- ==== Sys2Proof/Proofs/FrameRows.lean ====
section
/-! ENCODE and the three FRAME rows as instructions: what they leave as it was, which bits of the mask they read, and
the FRAME row that an accepted FEED_TERM performs. -/

namespace Sys2Proof.Machine

/-! ### What ENCODE and the FRAME rows leave as it was -/

/-- A FRAME row answers on the decode port and does nothing else (R81). -/
theorem exec_frameRow {i : Instr} (s : State)
    (hi : i = .frameEmpty ∨ (∃ body, i = .frameBadLen body) ∨ ∃ b1 b2 b3 b4 m, i = .frameData b1 b2 b3 b4 m) :
    ∃ m, exec i s = .next (s.respond m) := by
  obtain rfl | ⟨body, rfl⟩ | ⟨b1, b2, b3, b4, m, rfl⟩ := hi
  · exact ⟨_, rfl⟩
  · exact ⟨_, rfl⟩
  · exact ⟨_, rfl⟩

/-- Settles O17: ENCODE writes the encode port's response, a FRAME row the decode port's and the draw counter. -/
theorem encodeAndFrameRowsKeepDecoders : Obligations.EncodeAndFrameRowsKeepDecoders := by
  intro s t i h
  constructor
  · rintro ⟨w, rfl⟩
    rw [exec_encode, Host.Outcome.next.injEq] at h
    subst h
    exact ⟨rfl, rfl, rfl, rfl, rfl, rfl, rfl⟩
  · intro hi
    obtain ⟨m, hm⟩ := exec_frameRow s hi
    rw [hm, Host.Outcome.next.injEq] at h
    subst h
    exact ⟨rfl, rfl, rfl, rfl, rfl, rfl⟩

/-! ### The bits of the mask -/

/-- Of the mask a data frame's word depends on bits 7 to 4 only (R57, D6). -/
theorem frameWord_congr_mask (c : Config) (b1 b2 b3 b4 : Byte) {m n : Byte}
    (h : m.extractLsb' 4 4 = n.extractLsb' 4 4) :
    frameWord c (c.wrap (dataBody b1 b2 b3 b4 m)) = frameWord c (c.wrap (dataBody b1 b2 b3 b4 n)) := by
  have hbit (k : Fin 4) : m.getLsbD (7 - k.val) = n.getLsbD (7 - k.val) := by
    have hk := congrArg (fun x => x.getLsbD (3 - k.val)) h
    have hlt : 3 - k.val < 4 := by omega
    have hpos : 4 + (3 - k.val) = 7 - k.val := by omega
    simpa [BitVec.getLsbD_extractLsb', hlt, hpos] using hk
  have hbyte (k : Fin 4) : restore c (c.wrap (dataBody b1 b2 b3 b4 m)) (k.val + 1) =
      restore c (c.wrap (dataBody b1 b2 b3 b4 n)) (k.val + 1) := by
    rw [restore_wrap_dataBody, restore_wrap_dataBody, hbit]
  rw [frameWord, frameWord]
  congr 1
  · exact hbyte 0
  · exact hbyte 1
  · exact hbyte 2
  · exact hbyte 3

/-- Settles O18: neither frame is the sentinel, so both are answered by their words. -/
theorem lowMaskBitsSelectNothing : Obligations.LowMaskBitsSelectNothing := by
  intro s t u b1 b2 b3 b4 m n hm hn hmask ht hu
  rw [exec_frameData_of_ne (wellFormed_frameData_iff.mp hm), Host.Outcome.next.injEq] at ht
  rw [exec_frameData_of_ne (wellFormed_frameData_iff.mp hn), Host.Outcome.next.injEq] at hu
  rw [← ht, ← hu, State.respond_res, State.respond_res, frameWord_congr_mask s.cfg b1 b2 b3 b4 hmask]

/-- The five inner bytes of the default sentinel (R14). -/
theorem wrap_eq_default_sentinel_iff {b1 b2 b3 b4 mask : Byte} :
    Config.default.wrap (dataBody b1 b2 b3 b4 mask) = Config.default.emptyPattern.toList ↔
      b1 = 0x00 ∧ b2 = 0x00 ∧ b3 = 0x00 ∧ b4 = 0x80 ∧ mask = 0x00 := by
  simp [Config.wrap, Config.default]

/-- Settles O19: a mask of 0x01 to 0x0F selects what mask 0x00 selects, but makes the frame differ from the sentinel. -/
theorem sentinelShadowsOneWord : Obligations.SentinelShadowsOneWord := by
  intro s hs
  refine ⟨by rw [hs]; decide, fun n hn => ?_⟩
  have hmask : n.setWidth 8 ≠ (0x00 : Byte) := fun h => hn (by simpa using congrArg (BitVec.setWidth 4) h)
  have hhigh : (n.setWidth 8).extractLsb' 4 4 = (0x00 : Byte).extractLsb' 4 4 := by
    ext i hi
    simp [BitVec.getLsbD_of_ge]
  have hne : s.cfg.wrap (dataBody 0x00 0x00 0x00 0x80 (n.setWidth 8)) ≠ s.cfg.emptyPattern.toList := by
    rw [hs, ne_eq, wrap_eq_default_sentinel_iff]
    exact fun ⟨_, _, _, _, h⟩ => hmask h
  refine ⟨_, exec_frameData_of_ne hne, ?_⟩
  rw [State.respond_res, frameWord_congr_mask s.cfg _ _ _ _ hhigh, hs]
  rfl

/-! ### The FRAME row of a closed frame -/

/-- With a frame in progress the live bytes begin with the start marker (R21). -/
theorem Decoder.live_eq_cons {c : Config} {d : Decoder} (ha : d.Accepting) (hd : d.Inv c) :
    d.live = c.startMarker :: d.live.tail := by
  obtain ⟨hzero, -⟩ := hd ha.1
  have hhead : d.live.head? = some c.startMarker := by
    rw [Decoder.live, List.head?_take, if_neg (Nat.ne_of_gt ha.1), List.head?_eq_getElem?]
    simpa using hzero
  exact (List.cons_head?_tail hhead).symm

/-- The frame that FEED_TERM closes is completed: its body is what is live after the start marker (R56). -/
theorem Decoder.live_append_terminator {c : Config} {d : Decoder} (ha : d.Accepting) (hd : d.Inv c) :
    d.live ++ [c.terminator] = c.wrap d.live.tail := by
  rw [Decoder.live_eq_cons ha hd]
  rfl

/-- Settles O20: both answer FRAME_DECODE of the closed frame, and FEED_TERM alone replaces its decoder. -/
theorem feedTermPerformsItsFrameRow : Obligations.FeedTermPerformsItsFrameRow := by
  intro s d hd ha hinv
  have hframe := Decoder.live_append_terminator ha hinv
  have hlen : (s.cfg.wrap d.live.tail).length = d.position.val + 1 := by
    rw [← hframe, Decoder.length_live_append_singleton]
  have hok : frameLenOk (s.cfg.wrap d.live.tail).length := by
    rw [hlen]
    exact ⟨Nat.succ_le_succ ha.1, ha.2⟩
  refine ⟨_, _, _, (d.store s.cfg.terminator ha.2).rewind, ?_, exec_feedTerm_of_some hd,
    exec_decodeBody s d.live.tail, ?_, Decoder.rewind_position _⟩
  · exact (congrArg (fun bytes => decode s.cfg (.frame bytes)) hframe).trans (decode_wrap hok)
  · rw [Decoder.feedTerm_of_accepting s.cfg ha, Decoder.frame_store, ← hframe]
    rfl

end Sys2Proof.Machine
end

