-- ==== Sys2Proof/Proofs/EncodedFrames.lean ====
section
/-! The encoded frame (42_encoder.md): the range of its letters under the default constants, and the words told
apart by their nibbles, so that distinct words have distinct frames. -/

namespace Sys2Proof.Machine

/-- Under the default constants the letters are 0x41 to 0x50, among which no sentinel is (R90). -/
theorem letter_default (n : BitVec 4) :
    0x41 ≤ letter Config.default n ∧ letter Config.default n ≤ 0x50 ∧ letter Config.default n ≠ 0x01 ∧
      letter Config.default n ≠ 0x06 ∧ letter Config.default n ≠ 0x0D := by
  revert n
  decide

/-- Settles O22: the bytes between the delimiters are letters. -/
theorem encodedFrameIsDelimited : Obligations.EncodedFrameIsDelimited := by
  intro s w hs
  obtain ⟨hstart, hterm⟩ := encodeWord_ends s.cfg w
  refine ⟨_, _, exec_encode w s, State.emit_encFrame _ _, ?_, ?_, fun i hi => ?_⟩
  · rw [hstart, hs]
    rfl
  · rw [hterm, hs]
    rfl
  · rw [hs]
    exact ⟨_, encodeWord_letter Config.default w hi, letter_default _⟩

/-- A word is determined by its groups of `n` bits: bit `j` stands in group `j / n`. -/
theorem word_eq_of_groups {n : Nat} (hn : 0 < n) {v w : Word}
    (h : ∀ i, n * i < 32 → v.extractLsb' (n * i) n = w.extractLsb' (n * i) n) : v = w := by
  refine BitVec.eq_of_getLsbD_eq fun j hj => ?_
  have hgroup := h (j / n) (Nat.lt_of_le_of_lt (Nat.mul_div_le j n) hj)
  have hbit := congrArg (fun x => x.getLsbD (j % n)) hgroup
  simpa [Nat.mod_lt j hn, Nat.div_add_mod] using hbit

/-- A word is determined by its eight nibbles (R85). -/
theorem word_eq_of_nibbles {v w : Word} (h : ∀ i, i < 8 → nibble v i = nibble w i) : v = w :=
  word_eq_of_groups (n := 4) (by decide) fun i hi => h i (by omega)

/-- A word is determined by its four byte lanes (R79). -/
theorem word_eq_of_lanes {v w : Word}
    (h : ∀ k : Fin 4, v.extractLsb' (8 * k.val) 8 = w.extractLsb' (8 * k.val) 8) : v = w :=
  word_eq_of_groups (n := 8) (by decide) fun i hi => h ⟨i, by omega⟩

/-- The encoder is one-to-one, whatever the constants are (R88). -/
theorem encodeWord_injective (c : Config) {v w : Word} (h : encodeWord c v = encodeWord c w) : v = w := by
  refine word_eq_of_nibbles fun i hi => letter_injective c ?_
  rw [← Option.some.injEq, ← encodeWord_letter c v hi, ← encodeWord_letter c w hi, h]

/-- Settles O23: ENCODE goes on for every word and answers the word's own frame. -/
theorem distinctWordsGiveDistinctFrames : Obligations.DistinctWordsGiveDistinctFrames := by
  intro s v w
  refine ⟨_, _, exec_encode v s, exec_encode w s, fun h => ?_⟩
  exact encodeWord_injective s.cfg (by simpa using h)

end Sys2Proof.Machine
end

