-- ==== Sys2Proof/Proofs/Offers.lean ====
section
/-! What a step performs of what stands at the ports: the decoded instruction, which frames and which offers are
refused, and that the order within an offer cannot be observed (20_memory.md section 4). -/

namespace Sys2Proof.Machine

open Sys2Proof.Laws.PortForm (CompletedFrame)

/-! ### The decoded instruction -/

theorem step_of_input_ok {s t : State} {p : PortInput} {i : Instr} (h : s.fetch = .input p t)
    (hd : decode t.cfg p = .ok i) : step s = exec i t := by
  simp only [step, h, hd]

theorem step_of_input_error {s t : State} {p : PortInput} {why : DecodeError} (h : s.fetch = .input p t)
    (hd : decode t.cfg p = .error why) : step s = .refused (.undecodable why) := by
  simp only [step, h, hd]

/-- Settles O31: each of the three inputs is what the fetch finds, on the state that the statement writes out. -/
theorem stepRunsTheDecodedInstruction : Obligations.StepRunsTheDecodedInstruction :=
  ⟨fun _ _ _ hf hd => step_of_input_ok (State.fetch_of_frame hf) hd,
    fun _ _ _ _ _ _ hf hi hn hd => step_of_input_ok (State.fetch_of_offer hf hi hn) hd,
    fun _ _ _ _ _ hf hi hn hd => step_of_input_ok (State.fetch_of_offer hf hi hn) hd⟩

/-- Settles O30: a completed frame is answered by its FRAME row; any other bytes are rejected by the decoder. -/
theorem onlyCompletedFramesAreDecoded : Obligations.OnlyCompletedFramesAreDecoded := by
  intro s bytes hf
  have hfetch := State.fetch_of_frame hf
  have hform : (bytes.length < 2 ∨ Config.capacity < bytes.length ∨ bytes.head? ≠ some s.cfg.startMarker ∨
      bytes.getLast? ≠ some s.cfg.terminator) ↔ ¬ CompletedFrame s.cfg bytes := by
    simp only [CompletedFrame, frameLenOk, not_and_or, not_le, or_assoc, ne_eq]
  rw [hform]
  by_cases hc : CompletedFrame s.cfg bytes
  · have hstep := step_of_input_ok hfetch (decodeFrame_of_completedFrame hc)
    refine iff_of_false (fun ⟨why, hw⟩ => ?_) (not_not.mpr hc)
    exact absurd ((hstep.trans (exec_decodeBody { s.quiet with frameIn := none } _)).symm.trans hw) nofun
  · obtain ⟨why, hw⟩ := decodeFrame_of_not_completedFrame hc
    exact iff_of_true ⟨why, step_of_input_error hfetch hw⟩ hc

/-! ### Which offers are refused -/

/-- The decoder a transaction is fed to, where it is a FEED. -/
def Txn.target : Txn → Option Nat
  | .feed k _ => some k
  | .enc _ => none

theorem Txn.target_eq_some_iff {x : Txn} {k : Nat} : x.target = some k ↔ ∃ b, x = .feed k b := by
  cases x <;> simp [Txn.target]

theorem feedTargets_eq_filterMap (ts : List Txn) : feedTargets ts = ts.filterMap Txn.target := by
  induction ts with
  | nil => rfl
  | cons x xs ih =>
    cases x with
    | feed k b => exact congrArg (k :: ·) ih
    | enc w => exact ih

/-- The targets of an offer repeat exactly where two of its places hold FEEDs to one decoder. -/
theorem not_nodup_feedTargets_iff {ts : List Txn} :
    ¬ (feedTargets ts).Nodup ↔
      ∃ (i j k : Nat) (a b : Byte), i < j ∧ ts[i]? = some (.feed k a) ∧ ts[j]? = some (.feed k b) := by
  rw [feedTargets_eq_filterMap, List.Nodup, List.pairwise_filterMap, List.pairwise_iff_getElem]
  push Not
  constructor
  · rintro ⟨i, j, hi, hj, hij, k, hk, l, hl, rfl⟩
    obtain ⟨a, ha⟩ := Txn.target_eq_some_iff.mp hk
    obtain ⟨b, hb⟩ := Txn.target_eq_some_iff.mp hl
    exact ⟨i, j, k, a, b, hij, ha ▸ List.getElem?_eq_getElem hi, hb ▸ List.getElem?_eq_getElem hj⟩
  · rintro ⟨i, j, k, a, b, hij, ha, hb⟩
    obtain ⟨hi, ha⟩ := List.getElem?_eq_some_iff.mp ha
    obtain ⟨hj, hb⟩ := List.getElem?_eq_some_iff.mp hb
    exact ⟨i, j, hi, hj, hij, k, Txn.target_eq_some_iff.mpr ⟨a, ha⟩, k, Txn.target_eq_some_iff.mpr ⟨b, hb⟩, rfl⟩

theorem State.onCurrent_ne_refused (s : State) (f : Decoder → Decoder × Decoded) (why : Refusal) :
    s.onCurrent f ≠ .refused why := by
  unfold State.onCurrent
  split <;> nofun

/-- Of an offer without a repeated target a transaction is performed, and no transaction refuses. -/
theorem step_of_offer_ne_refused {s : State} {x : Txn} {ts : List Txn} {rest : List Event} (hf : s.frameIn = none)
    (hi : s.inputs = .offer (x :: ts) :: rest) (hn : (feedTargets (x :: ts)).Nodup) (why : Refusal) :
    step s ≠ .refused why := by
  cases x with
  | feed k b =>
    rw [step_of_feed hf hi hn]
    exact State.onCurrent_ne_refused _ _ _
  | enc w =>
    rw [step_of_enc hf hi hn]
    nofun

/-- Settles O34: the fetch refuses an offer exactly if its targets repeat, and an empty offer has none. -/
theorem concurrentFeedsAreRefused : Obligations.ConcurrentFeedsAreRefused := by
  intro s ts rest hf hi
  rw [← not_nodup_feedTargets_iff]
  cases ts with
  | nil =>
    rw [step_of_idle (State.fetch_of_poll hf hi)]
    exact iff_of_false nofun (not_not.mpr List.nodup_nil)
  | cons x xs =>
    by_cases hn : (feedTargets (x :: xs)).Nodup
    · exact iff_of_false (step_of_offer_ne_refused hf hi hn _) (not_not.mpr hn)
    · refine iff_of_true ?_ hn
      simp only [step, State.fetch_of_clash hf hi hn]

/-! ### Every other offer goes on -/

/-- The state after an ENCODE of `w`, with `es` left to offer. -/
def State.encoded (s : State) (w : Word) (es : List Event) : State :=
  State.emit { s.quiet with inputs := es } (encodeWord s.cfg w)

section encoded
variable (s : State) (w : Word) (es : List Event)
@[simp] theorem State.encoded_cfg : (s.encoded w es).cfg = s.cfg := rfl
@[simp] theorem State.encoded_decoders : (s.encoded w es).decoders = s.decoders := rfl
@[simp] theorem State.encoded_current : (s.encoded w es).current = s.current := rfl
@[simp] theorem State.encoded_frameIn : (s.encoded w es).frameIn = s.frameIn := rfl
@[simp] theorem State.encoded_inputs : (s.encoded w es).inputs = es := rfl
@[simp] theorem State.encoded_res : (s.encoded w es).res = none := rfl
@[simp] theorem State.encoded_encFrame : (s.encoded w es).encFrame = some (encodeWord s.cfg w) := rfl
@[simp] theorem State.encoded_draws : (s.encoded w es).draws = s.draws := rfl
end encoded

theorem step_of_enc_encoded {s : State} {w : Word} {ts : List Txn} {rest : List Event} (hf : s.frameIn = none)
    (hi : s.inputs = .offer (.enc w :: ts) :: rest) (hn : (feedTargets ts).Nodup) :
    step s = .next (s.encoded w (pushRest ts rest)) :=
  step_of_enc hf hi hn

/-- Settles O33: a FEED that finds its decoder answers on the decode port, an ENCODE on the encode port. -/
theorem offeredTransactionIsAlwaysEnabled : Obligations.OfferedTransactionIsAlwaysEnabled := by
  intro s x ts rest hf hi hn hk
  cases x with
  | feed k b =>
    have hd := List.getElem?_eq_getElem (hk k b rfl)
    exact ⟨_, step_of_feed_some hf hi hn hd, rfl, iff_of_false nofun nofun⟩
  | enc w => exact ⟨_, step_of_enc_encoded hf hi hn, rfl, iff_of_true rfl ⟨w, rfl⟩⟩

/-! ### The order within an offer -/

/-- Of two FEEDs offered to different decoders the first is performed and then the second, each on its own decoder. -/
theorem steps_of_two_feeds {s : State} {k l : Nat} {a b : Byte} {d e : Decoder} (rest : List Event)
    (hf : s.frameIn = none) (hkl : k ≠ l) (hd : s.decoders[k]? = some d) (he : s.decoders[l]? = some e) :
    ∃ t t', step { s with inputs := .offer [.feed k a, .feed l b] :: rest } = .next t ∧ step t = .next t' ∧
      t'.decoders = (s.decoders.set k (feedOf s.cfg a d).1).set l (feedOf s.cfg b e).1 ∧
      t.res = some (feedOf s.cfg a d).2 ∧ t'.res = some (feedOf s.cfg b e).2 ∧ t'.inputs = rest := by
  have hn : (feedTargets [.feed k a, .feed l b]).Nodup := by simpa [feedTargets] using hkl
  have he' : (s.decoders.set k (feedOf s.cfg a d).1)[l]? = some e := by rwa [List.getElem?_set_ne hkl]
  exact ⟨_, _, step_of_feed_some (s := { s with inputs := .offer [.feed k a, .feed l b] :: rest }) hf rfl hn hd,
    step_of_feed_some rfl rfl (List.nodup_singleton l) he', rfl, rfl, rfl, rfl⟩

/-- Settles O35: replacements at different places commute. -/
theorem feedsOnDifferentDecodersCommute : Obligations.FeedsOnDifferentDecodersCommute := by
  intro s k l a b rest hf hkl hk hl
  have hd := List.getElem?_eq_getElem hk
  have he := List.getElem?_eq_getElem hl
  obtain ⟨t, t', h1, h2, hdec, hres, hres', hin⟩ := steps_of_two_feeds (a := a) (b := b) rest hf hkl hd he
  obtain ⟨u, u', g1, g2, gdec, gres, gres', gin⟩ := steps_of_two_feeds (a := b) (b := a) rest hf hkl.symm he hd
  refine ⟨t, t', u, u', h1, h2, g1, g2, ?_, hres.trans gres'.symm, hres'.trans gres.symm, hin, gin⟩
  rw [hdec, gdec, List.set_comm _ _ hkl]

/-- Settles O36: the ENCODE leaves the decoders and the constants that the FEED finds, and the FEED the constants
that the ENCODE reads. -/
theorem encodeAndFeedCommute : Obligations.EncodeAndFeedCommute := by
  intro s k b w rest hf hk
  have hd := List.getElem?_eq_getElem hk
  have hn : (feedTargets [.feed k b, .enc w]).Nodup := List.nodup_singleton k
  have hn' : (feedTargets [.feed k b]).Nodup := List.nodup_singleton k
  exact ⟨_, _, _, _, step_of_feed_some (s := { s with inputs := .offer [.feed k b, .enc w] :: rest }) hf rfl hn hd,
    step_of_enc_encoded rfl rfl List.nodup_nil,
    step_of_enc_encoded (s := { s with inputs := .offer [.enc w, .feed k b] :: rest }) hf rfl hn',
    step_of_feed_some hf rfl hn' hd, rfl, rfl, rfl, rfl, rfl⟩

end Sys2Proof.Machine
end

