-- ==== Sys2Proof/Proofs/Streams.lean ====
section
/-! Streams of bytes fed to one decoder (40_decoder_fsm.md section 3): the stuck state, the course of an overflow, a
complete frame from any state, and an encoded frame fed back. -/

namespace Sys2Proof.Machine

/-! ### A stream on one decoder -/

/-- Several bytes fed to one decoder: the responses in order and the decoder after. -/
def Decoder.feedList (c : Config) : List Byte → Decoder → List Decoded × Decoder
  | [], d => ([], d)
  | b :: bs, d =>
    ((feedOf c b d).2 :: (Decoder.feedList c bs (feedOf c b d).1).1, (Decoder.feedList c bs (feedOf c b d).1).2)

/-- A stream to the current decoder goes on throughout, and is the stream on that decoder alone (R31). -/
theorem feedAll_eq_feedList {s : State} {d : Decoder} (bs : List Byte) (h : s.decoders[s.current]? = some d) :
    ∃ t, feedAll bs s = some ((d.feedList s.cfg bs).1, t) ∧ t.cfg = s.cfg ∧ t.current = s.current ∧
      t.decoders = s.decoders.set s.current (d.feedList s.cfg bs).2 := by
  induction bs generalizing s d with
  | nil => exact ⟨s, rfl, rfl, rfl, (State.decoders_set_current_self h).symm⟩
  | cons b bs ih =>
    have hlt : s.current < s.decoders.length := (List.getElem?_eq_some_iff.mp h).1
    have hfed : (s.fed s.current d b s.inputs).decoders[s.current]? = some (feedOf s.cfg b d).1 :=
      List.getElem?_set_self hlt
    obtain ⟨t, hall, hcfg, hcur, hdec⟩ := ih hfed
    refine ⟨t, ?_, hcfg, hcur, ?_⟩
    · simp only [feedAll, step_withInput_feed b h, State.fed_res, hall]
      rfl
    · rw [hdec, State.fed_decoders, State.fed_current, List.set_set]
      rfl

section feedList
variable {c : Config} {d : Decoder} {bs : List Byte}

theorem Decoder.feedList_append (c : Config) (xs ys : List Byte) (d : Decoder) :
    d.feedList c (xs ++ ys) =
      ((d.feedList c xs).1 ++ ((d.feedList c xs).2.feedList c ys).1, ((d.feedList c xs).2.feedList c ys).2) := by
  induction xs generalizing d with
  | nil => rfl
  | cons x xs ih => simp only [List.cons_append, Decoder.feedList, ih]

/-- A decoder that accepts nothing rejects every byte but a start marker and stays as it is (R72, R73). -/
theorem Decoder.feedList_of_rejecting (ha : ¬ d.Accepting) (hbs : ∀ b ∈ bs, b ≠ c.startMarker) :
    d.feedList c bs = (List.replicate bs.length .error, d) := by
  induction bs with
  | nil => rfl
  | cons b bs ih =>
    obtain ⟨hb, hbs⟩ := List.forall_mem_cons.mp hbs
    rw [Decoder.feedList, feedOf_of_rejecting hb ha, ih hbs, List.length_cons, List.replicate_succ]

/-- Bytes that are neither marker lengthen a frame in progress as long as there is room (R69). -/
theorem Decoder.feedList_plain (hpos : 0 < d.position.val) (hroom : d.position.val + bs.length ≤ Config.capacity)
    (hbs : ∀ b ∈ bs, b ≠ c.startMarker ∧ b ≠ c.terminator) :
    (d.feedList c bs).1 = List.replicate bs.length .pending ∧ (d.feedList c bs).2.live = d.live ++ bs := by
  induction bs generalizing d with
  | nil => exact ⟨rfl, (List.append_nil _).symm⟩
  | cons b bs ih =>
    obtain ⟨⟨hs, ht⟩, hbs⟩ := List.forall_mem_cons.mp hbs
    have hroom : d.position.val + 1 + bs.length ≤ Config.capacity := by
      rwa [List.length_cons, Nat.add_comm bs.length, ← Nat.add_assoc] at hroom
    have ha : d.Accepting := ⟨hpos, Nat.lt_of_lt_of_le (Nat.lt_succ_self _) (Nat.le_of_add_right_le hroom)⟩
    obtain ⟨hres, hlive⟩ := ih (d := (d.store b ha.2).advance ha.2) (Nat.succ_pos _) hroom hbs
    rw [Decoder.feedList, feedOf_plain hs ht ha, hres, hlive, Decoder.live_advance_store]
    exact ⟨rfl, List.append_assoc _ [b] bs⟩

/-- A start marker and up to nine bytes that are neither marker are all accepted, from every state (R67, R69). -/
theorem Decoder.feedList_start_plain (d : Decoder) (hroom : bs.length ≤ 9)
    (hbs : ∀ b ∈ bs, b ≠ c.startMarker ∧ b ≠ c.terminator) :
    (d.feedList c (c.startMarker :: bs)).1 = List.replicate (bs.length + 1) .pending ∧
      (d.feedList c (c.startMarker :: bs)).2.live = c.startMarker :: bs := by
  have hfits : (d.start c).position.val + bs.length ≤ Config.capacity := by
    rw [Decoder.start_position, Nat.add_comm]
    exact Nat.succ_le_succ hroom
  obtain ⟨hres, hlive⟩ := Decoder.feedList_plain Nat.one_pos hfits hbs
  rw [Decoder.feedList, feedOf_startMarker, hres, hlive, Decoder.live_start]
  exact ⟨rfl, rfl⟩

theorem Decoder.stuck_iff_length_live : d.Stuck ↔ d.live.length = Config.capacity := by
  rw [Decoder.length_live]

/-- Bytes that fill the buffer before a terminator comes leave the decoder stuck (R72, R73). -/
theorem Decoder.feedList_overflow (hpos : 0 < d.position.val) (hfull : Config.capacity ≤ d.position.val + bs.length)
    (hplain : ∀ b ∈ bs.take (Config.capacity - d.position.val), b ≠ c.startMarker ∧ b ≠ c.terminator)
    (hbs : ∀ b ∈ bs, b ≠ c.startMarker) :
    (d.feedList c bs).1 = List.replicate (Config.capacity - d.position.val) .pending ++
        List.replicate (bs.length - (Config.capacity - d.position.val)) .error ∧ (d.feedList c bs).2.Stuck := by
  have hle : d.position.val ≤ Config.capacity := Nat.le_of_lt_succ d.position.isLt
  have htake : (bs.take (Config.capacity - d.position.val)).length = Config.capacity - d.position.val :=
    List.length_take_of_le (by omega)
  obtain ⟨hres, hlive⟩ := Decoder.feedList_plain hpos (by omega) hplain
  have hstuck : (d.feedList c (bs.take (Config.capacity - d.position.val))).2.Stuck := by
    rw [Decoder.stuck_iff_length_live, hlive, List.length_append, Decoder.length_live, htake]
    omega
  have hrest := Decoder.feedList_of_rejecting (c := c) (bs := bs.drop (Config.capacity - d.position.val))
    (not_accepting_of_stuck hstuck) fun b hb => hbs b (List.mem_of_mem_drop hb)
  rw [← List.take_append_drop (Config.capacity - d.position.val) bs, Decoder.feedList_append, hrest, hres, htake,
    List.take_append_drop, List.length_drop]
  exact ⟨rfl, hstuck⟩

end feedList

/-! ### Overflow -/

/-- Settles O44: a stuck decoder accepts nothing. -/
theorem stuckDecoderAnswersOnlyError : Obligations.StuckDecoderAnswersOnlyError := by
  intro s d bs hd hstuck hbs
  obtain ⟨t, hall, -, -, hdec⟩ := feedAll_eq_feedList bs hd
  rw [Decoder.feedList_of_rejecting (not_accepting_of_stuck hstuck) hbs] at hall hdec
  exact ⟨t, hall, hdec.trans (State.decoders_set_current_self hd)⟩

/-- A stuck decoder's buffer is live throughout. -/
theorem Decoder.toList_buffer_of_stuck {d : Decoder} (h : d.Stuck) : d.buffer.toList = d.live := by
  rw [Decoder.live, h, List.take_of_length_le (Nat.le_of_eq Vector.length_toList)]

/-- Settles O45: the start marker and the nine bytes fill the buffer, which only a start marker releases. -/
theorem overflowSticksUntilStartMarker : Obligations.OverflowSticksUntilStartMarker := by
  intro s d fill more hd hlen hfill hmore
  obtain ⟨hres, hlive⟩ := d.feedList_start_plain (Nat.le_of_eq hlen) hfill
  generalize he : (d.feedList s.cfg (s.cfg.startMarker :: fill)).2 = e at hlive
  have hstuck : e.Stuck := by
    rw [Decoder.stuck_iff_length_live, hlive, List.length_cons, hlen]
  obtain ⟨t, hall, hcfg, hcur, hdec⟩ := feedAll_eq_feedList (s.cfg.startMarker :: fill ++ more) hd
  rw [Decoder.feedList_append, hres, he, Decoder.feedList_of_rejecting (not_accepting_of_stuck hstuck) hmore,
    hlen] at hall
  rw [Decoder.feedList_append, he, Decoder.feedList_of_rejecting (not_accepting_of_stuck hstuck) hmore] at hdec
  have hlt : s.current < s.decoders.length := (List.getElem?_eq_some_iff.mp hd).1
  have hte : t.decoders[s.current]? = some e := by
    rw [hdec, List.getElem?_set_self hlt]
  have hrelease := step_withInput_feed (s := t) s.cfg.startMarker (hcur.symm ▸ hte)
  refine ⟨t, e, _, e.start s.cfg, hall, hte, hstuck, (Decoder.toList_buffer_of_stuck hstuck).trans hlive, hrelease,
    ?_, ?_, Decoder.start_position _ _⟩
  · rw [State.fed_res, hcfg, feedOf_startMarker]
  · rw [State.fed_decoders, hcfg, hcur, feedOf_startMarker, hdec, List.set_set, List.getElem?_set_self hlt]

/-! ### A complete frame -/

/-- A terminator after fewer than ten live bytes is answered by FRAME_DECODE of them and itself (R68). -/
theorem Decoder.feedList_terminator {c : Config} {d : Decoder} (hs : c.terminator ≠ c.startMarker)
    (ha : d.Accepting) :
    d.feedList c [c.terminator] =
      ([frameDecode c (d.live ++ [c.terminator])], (d.store c.terminator ha.2).rewind) := by
  rw [Decoder.feedList, feedOf_terminator hs ha, Decoder.feedList]

/-- Settles O46: the start marker drops whatever was there, the body is appended and the terminator closes it. -/
theorem frameIsDecodedFromAnyState : Obligations.FrameIsDecodedFromAnyState := by
  intro s d body hd hc hlen hbody
  obtain ⟨hres, hlive⟩ := d.feedList_start_plain (Nat.le_succ_of_le hlen) hbody
  generalize he : (d.feedList s.cfg (s.cfg.startMarker :: body)).2 = e at hlive
  have hpos : e.position.val = body.length + 1 := by
    rw [← Decoder.length_live, hlive, List.length_cons]
  have ha : e.Accepting := by
    rw [Decoder.Accepting, hpos]
    exact ⟨Nat.succ_pos _, Nat.lt_of_le_of_lt (Nat.succ_le_succ hlen) (by decide)⟩
  obtain ⟨t, hall, -, -, hdec⟩ := feedAll_eq_feedList (s.cfg.startMarker :: body ++ [s.cfg.terminator]) hd
  rw [Decoder.feedList_append, hres, he, Decoder.feedList_terminator hc.1.symm ha, hlive] at hall
  rw [Decoder.feedList_append, he, Decoder.feedList_terminator hc.1.symm ha] at hdec
  exact ⟨t, _, hall, hdec, Decoder.rewind_position _⟩

/-! ### An encoded frame fed to a decoder -/

theorem toList_encodeWord (c : Config) (w : Word) :
    (encodeWord c w).toList =
      (c.startTx :: (List.range 8).map fun i => letter c (nibble w i)) ++ [c.terminator] := rfl

/-- No byte before an encoded frame's terminator is a marker of the decode direction (R90). -/
theorem encodeWord_plain {c : Config} (h : c.LettersApart) (w : Word) :
    ∀ b ∈ c.startTx :: (List.range 8).map fun i => letter c (nibble w i),
      b ≠ c.startMarker ∧ b ≠ c.terminator := by
  obtain ⟨hstart, hterm, hletters⟩ := h
  intro b hb
  obtain rfl | ⟨i, -, rfl⟩ : b = c.startTx ∨ ∃ i ∈ List.range 8, letter c (nibble w i) = b := by
    simpa only [List.mem_cons, List.mem_map] using hb
  · exact ⟨hstart, hterm⟩
  · obtain ⟨hs, ht, -⟩ := hletters (nibble w i)
    exact ⟨hs, ht⟩

/-- No byte of an encoded frame is the start marker (R90). -/
theorem encodeWord_no_start {c : Config} (hc : c.Wf) (h : c.LettersApart) (w : Word) :
    ∀ b ∈ (encodeWord c w).toList, b ≠ c.startMarker := by
  intro b hb
  rw [toList_encodeWord, List.mem_append, List.mem_singleton] at hb
  rcases hb with hb | rfl
  · exact (encodeWord_plain h w b hb).1
  · exact hc.1.symm

/-- Settles O25: from cursor 0 every byte is rejected; from any other the nine bytes before the terminator fill the
buffer, and the terminator comes too late. -/
theorem encodedFrameNeverDecodes : Obligations.EncodedFrameNeverDecodes := by
  intro s d w hd hc hletters
  have hno := encodeWord_no_start hc hletters w
  obtain ⟨t, hall, -, -, hdec⟩ := feedAll_eq_feedList (encodeWord s.cfg w).toList hd
  have hlt : s.current < s.decoders.length := (List.getElem?_eq_some_iff.mp hd).1
  refine ⟨_, t, hall, ?_⟩
  by_cases h0 : d.position = 0
  · have ha : ¬ d.Accepting := not_accepting_of_position_eq_zero (congrArg Fin.val h0)
    rw [Decoder.feedList_of_rejecting ha hno] at hdec ⊢
    rw [length_encodeWord]
    exact ⟨fun r hr => .inr (List.eq_of_mem_replicate hr), rfl, rfl,
      fun _ => ⟨rfl, hdec.trans (State.decoders_set_current_self hd)⟩, fun hne => absurd h0 hne⟩
  · have hpos : 0 < d.position.val := Nat.pos_of_ne_zero fun h => h0 (Fin.ext h)
    have hle : d.position.val ≤ Config.encLen := Nat.le_of_lt_succ d.position.isLt
    have hshort : Config.capacity - d.position.val ≤
        (s.cfg.startTx :: (List.range 8).map fun i => letter s.cfg (nibble w i)).length :=
      Nat.sub_le_sub_left hpos Config.capacity
    have hplain : ∀ b ∈ (encodeWord s.cfg w).toList.take (Config.capacity - d.position.val),
        b ≠ s.cfg.startMarker ∧ b ≠ s.cfg.terminator := by
      intro b hb
      rw [toList_encodeWord, List.take_append_of_le_length hshort] at hb
      exact encodeWord_plain hletters w b (List.mem_of_mem_take hb)
    have hfull : Config.capacity ≤ d.position.val + (encodeWord s.cfg w).toList.length := by
      rw [length_encodeWord]
      exact Nat.le_add_left _ _
    obtain ⟨hres, hstuck⟩ := Decoder.feedList_overflow hpos hfull hplain hno
    rw [length_encodeWord, Nat.sub_sub_self hle] at hres
    rw [hres]
    refine ⟨fun r hr => ?_, ?_, ?_, fun h => absurd h h0, fun _ => ⟨_, ?_, hstuck⟩⟩
    · exact (List.mem_append.mp hr).imp List.eq_of_mem_replicate List.eq_of_mem_replicate
    · rw [List.length_append, List.length_replicate, List.length_replicate]
      exact Nat.sub_add_cancel hle
    · rw [List.getLast?_append, List.getLast?_replicate, if_neg (Nat.ne_of_gt hpos)]
      rfl
    · rw [hdec, List.getElem?_set_self hlt]

end Sys2Proof.Machine
end

