-- ==== Sys2Proof/Proofs/Delivery.lean ====
section
/-! The reach of `Data` under the default constants (41_frame_check.md): every word is the answer to some frame, and
0x80000000 only to frames with a low mask nibble. -/

namespace Sys2Proof.Machine

/-! ### Escaping -/

/-- The bytes that cannot stand in a frame's payload under the default constants: the two markers (R78). -/
def escaped (r : Byte) : Bool := r == 0x06 || r == 0x0D

/-- What stands in a frame's payload for the byte `r`: 0x00 for the start marker, another byte for the terminator. -/
def escapeByte (r : Byte) : Byte := if r = 0x06 then 0x00 else if r = 0x0D then 0x01 else r

theorem escapeByte_plain (r : Byte) : escapeByte r ≠ 0x06 ∧ escapeByte r ≠ 0x0D := by
  unfold escapeByte
  split_ifs with hs ht
  · decide
  · decide
  · exact ⟨hs, ht⟩

/-- Restoration undoes escaping (R78). -/
theorem restore_escapeByte (r : Byte) :
    (if escaped r then (if escapeByte r = 0x00 then 0x06 else 0x0D) else escapeByte r) = r := by
  unfold escapeByte escaped
  split_ifs <;> simp_all

/-- The mask whose bits 7 to 4 are the given ones and whose low nibble is 1, so that it is no marker and the frame is
not the sentinel. -/
def escapeMask (e : Fin 4 → Bool) : Byte := BitVec.ofBoolListBE [e 0, e 1, e 2, e 3, false, false, false, true]

theorem getLsbD_escapeMask (e : Fin 4 → Bool) (k : Fin 4) : (escapeMask e).getLsbD (7 - k.val) = e k := by
  match k with
  | 0 => exact BitVec.getLsbD_ofBoolListBE
  | 1 => exact BitVec.getLsbD_ofBoolListBE
  | 2 => exact BitVec.getLsbD_ofBoolListBE
  | 3 => exact BitVec.getLsbD_ofBoolListBE

theorem escapeMask_ne (e : Fin 4 → Bool) : escapeMask e ≠ 0x06 ∧ escapeMask e ≠ 0x0D ∧ escapeMask e ≠ 0x00 := by
  have h : ∀ e0 e1 e2 e3 : Bool, BitVec.ofBoolListBE [e0, e1, e2, e3, false, false, false, true] ≠ 0x06 ∧
      BitVec.ofBoolListBE [e0, e1, e2, e3, false, false, false, true] ≠ 0x0D ∧
      BitVec.ofBoolListBE [e0, e1, e2, e3, false, false, false, true] ≠ 0x00 := by decide
  exact h (e 0) (e 1) (e 2) (e 3)

/-- The payload and the mask of a frame that delivers the word `w` under the default constants. -/
def deliveryBody (w : Word) : List Byte :=
  dataBody (escapeByte (w.extractLsb' 0 8)) (escapeByte (w.extractLsb' 8 8)) (escapeByte (w.extractLsb' 16 8))
    (escapeByte (w.extractLsb' 24 8)) (escapeMask fun k => escaped (w.extractLsb' (8 * k.val) 8))

theorem deliveryBody_plain (w : Word) :
    ∀ b ∈ deliveryBody w, b ≠ Config.default.startMarker ∧ b ≠ Config.default.terminator := by
  obtain ⟨hs, ht, -⟩ := escapeMask_ne fun k => escaped (w.extractLsb' (8 * k.val) 8)
  simp only [deliveryBody, dataBody, List.forall_mem_cons, List.not_mem_nil, false_imp_iff, implies_true, and_true]
  exact ⟨escapeByte_plain _, escapeByte_plain _, escapeByte_plain _, escapeByte_plain _, hs, ht⟩

/-- The frame is not the sentinel, by its mask, and each of its restored bytes is the word's lane. -/
theorem frameDecode_deliveryBody (w : Word) :
    frameDecode Config.default (Config.default.wrap (deliveryBody w)) = .data w := by
  have hne : Config.default.wrap (deliveryBody w) ≠ Config.default.emptyPattern.toList := fun h => by
    obtain ⟨-, -, -, -, hzero⟩ := wrap_eq_default_sentinel_iff.mp h
    obtain ⟨-, -, hmask⟩ := escapeMask_ne fun k => escaped (w.extractLsb' (8 * k.val) 8)
    exact hmask hzero
  have hword : frameWord Config.default (Config.default.wrap (deliveryBody w)) = w := by
    refine word_eq_of_lanes fun k => ?_
    have hbyte : #v[escapeByte (w.extractLsb' 0 8), escapeByte (w.extractLsb' 8 8), escapeByte (w.extractLsb' 16 8),
        escapeByte (w.extractLsb' 24 8)][k.val] = escapeByte (w.extractLsb' (8 * k.val) 8) := by
      match k with
      | 0 => rfl
      | 1 => rfl
      | 2 => rfl
      | 3 => rfl
    rw [frameWord_lane, deliveryBody, restore_wrap_dataBody, getLsbD_escapeMask, hbyte]
    exact restore_escapeByte _
  exact (frameDecode_of_data rfl hne).trans (congrArg Decoded.data hword)

/-! ### The one word that the sentinel shadows -/

/-- A restored byte that is no marker stands in the frame as it is, with its mask bit clear (R78). -/
theorem bit_clear_of_restored {m : Bool} {b r : Byte} (hs : r ≠ 0x06) (ht : r ≠ 0x0D)
    (h : (if m then (if b = 0x00 then 0x06 else 0x0D) else b) = r) : m = false ∧ b = r := by
  cases m with
  | false => exact ⟨rfl, h⟩
  | true =>
    rw [if_pos rfl] at h
    split at h
    · exact absurd h.symm hs
    · exact absurd h.symm ht

/-- 0x80000000 is answered only to frames whose mask is clear in bits 7 to 4 and not 0x00 (D6). -/
theorem mask_of_frameDecode_eq_sentinel_word {b1 b2 b3 b4 m : Byte}
    (h : frameDecode Config.default (Config.default.wrap (dataBody b1 b2 b3 b4 m)) = .data 0x80000000) :
    (∀ k : Fin 4, m.getLsbD (7 - k.val) = false) ∧ m ≠ 0x00 := by
  have hne : Config.default.wrap (dataBody b1 b2 b3 b4 m) ≠ Config.default.emptyPattern.toList := fun he => by
    rw [he, frameDecode_emptyPattern] at h
    cases h
  have hword : frameWord Config.default (Config.default.wrap (dataBody b1 b2 b3 b4 m)) = 0x80000000 :=
    Decoded.data.inj ((frameDecode_of_data rfl hne).symm.trans h)
  have hlane (k : Fin 4) : m.getLsbD (7 - k.val) = false ∧
      #v[b1, b2, b3, b4][k.val] = (0x80000000 : Word).extractLsb' (8 * k.val) 8 := by
    have hplain : ∀ j : Fin 4, (0x80000000 : Word).extractLsb' (8 * j.val) 8 ≠ 0x06 ∧
        (0x80000000 : Word).extractLsb' (8 * j.val) 8 ≠ 0x0D := by decide
    have hk := frameWord_lane Config.default (Config.default.wrap (dataBody b1 b2 b3 b4 m)) k
    rw [hword, restore_wrap_dataBody] at hk
    obtain ⟨hs, ht⟩ := hplain k
    exact bit_clear_of_restored hs ht hk.symm
  refine ⟨fun k => (hlane k).1, fun hm => hne (wrap_eq_default_sentinel_iff.mpr ?_)⟩
  exact ⟨(hlane 0).2, (hlane 1).2, (hlane 2).2, (hlane 3).2, hm⟩

/-- Bits 7 to 4 of a byte, counted from the top, are its high nibble. -/
theorem highNibble_eq_zero {m : Byte} (h : ∀ k : Fin 4, m.getLsbD (7 - k.val) = false) : m.extractLsb' 4 4 = 0 := by
  refine BitVec.eq_of_getLsbD_eq fun i hi => ?_
  have hbit := h ⟨3 - i, by omega⟩
  have hpos : 7 - (3 - i) = 4 + i := by omega
  rw [hpos] at hbit
  simpa [hi] using hbit

theorem byte_eq_zero_of_nibbles {m : Byte} (hhigh : m.extractLsb' 4 4 = 0) (hlow : m.extractLsb' 0 4 = 0) :
    m = 0x00 := by
  have h : m.extractLsb' 4 4 ++ m.extractLsb' 0 4 = m.extractLsb' 0 (4 + 4) :=
    BitVec.extractLsb'_append_extractLsb'_eq_extractLsb' rfl
  rw [hhigh, hlow] at h
  exact BitVec.extractLsb'_eq_self.symm.trans h.symm

/-- Settles O47: the first half by the frame that escapes the word's lanes, the second since no lane of 0x80000000 is
a marker. -/
theorem everyWordCanBeDelivered : Obligations.EveryWordCanBeDelivered := by
  constructor
  · intro s d w hd hs
    have hc : s.cfg.Wf := by
      rw [hs]
      decide
    have hplain := deliveryBody_plain w
    rw [← hs] at hplain
    obtain ⟨t, e, hall, -, -⟩ := frameIsDecodedFromAnyState s d (deliveryBody w) hd hc (by decide : 5 ≤ 8) hplain
    rw [hs, frameDecode_deliveryBody, ← hs] at hall
    exact ⟨_, _, _, _, _, t, hplain, hall⟩
  · intro b1 b2 b3 b4 m h
    obtain ⟨hclear, hne⟩ := mask_of_frameDecode_eq_sentinel_word h
    have hhigh := highNibble_eq_zero hclear
    exact ⟨hhigh, fun hlow => hne (byte_eq_zero_of_nibbles hhigh hlow)⟩

end Sys2Proof.Machine
end
